-- ==== Sys2Proof/Word.lean ====
section
/-! DEFINITION. The two bit-vector types of the block: the 64-bit request and response word
(30_encoding.md R70) and the byte of the framebuffer and of the bus (00_scope.md R8). -/

namespace Sys2Proof

/-- A request or response word; bit 63 is the most significant, bit 0 the least (R10, R70). -/
abbrev Word := BitVec 64

/-- A framebuffer byte, a bus unit, an opcode (R8, R71). -/
abbrev Byte := BitVec 8

end Sys2Proof
end

