-- ==== Sys2Proof/Syntax.lean ====
section
/-! DEFINITION. The operation terms of 30_encoding.md R84: one constructor per row of
spec/opcode_table.json. Operands are the unbounded integers and naturals of R84; which of them a
request word can spell is `Instr.wellFormed` (WellFormed.lean).

The accessor `SRC` of `ENC_DRAW_IMAGE` is not in the term: it is a side input of the request (R77),
held in `State.image` while the request is performed. `enc.displayall` is another spelling of
`ENC_UPDATE` (R87), handled in Machine/Assembler.lean. -/

namespace Sys2Proof

/-- The block's operation set (00_scope.md R14), in the order of the opcode table. -/
inductive Instr where
  /-- `FB_CLEAR(on)`, 40_framebuffer.md R101. -/
  | fbClear (on : Bool)
  /-- `FB_SET(x, y, on)`, 40_framebuffer.md R102. -/
  | fbSet (x y : Int) (on : Bool)
  /-- `FB_GET(x, y)`, 40_framebuffer.md R103. -/
  | fbGet (x y : Int)
  /-- `FB_BOUNDS`, 40_framebuffer.md R104. -/
  | fbBounds
  /-- `ENC_INIT`, 41_encoder.md R133. -/
  | encInit
  /-- `ENC_UPDATE`, 41_encoder.md R137. -/
  | encUpdate
  /-- `ENC_DRAW_IMAGE(x0, y0, x1, y1, sx, sy, SRC)`, 41_encoder.md R145. -/
  | encDrawImage (x0 y0 x1 y1 sx sy : Int)
  /-- `ENC_POWER_OFF`, 41_encoder.md R149. -/
  | encPowerOff
  /-- `DB_TICK(now)`, 42_debounce.md R165. -/
  | dbTick (now : Nat)
  /-- `DB_START`, 42_debounce.md R170. -/
  | dbStart
  /-- `DB_STOP`, 42_debounce.md R171. -/
  | dbStop
  /-- `DB_SET_POLL(p)`, 42_debounce.md R172. -/
  | dbSetPoll (p : Nat)
  deriving DecidableEq, Repr

end Sys2Proof
end

