-- ==== Sys2Proof/Config.lean ====
section
/-! DEFINITION. What an implementation fixes (the parameters of 00_scope.md R7 and the conditions
R9 on them), the plain data that crosses the block's boundary (requests, source images, line levels,
primitive results), and the free values: constants with no body, so that nothing in Lean can tell
what they are. -/

namespace Sys2Proof

/-! ### Data at the boundary -/

/-- The two request ports (R40, R72). -/
inductive Port where
  | encoder
  | debounce
  deriving DecidableEq, Repr, Inhabited

/-- A level written to an output line or read from an input line (R12). -/
inductive Level where
  | low
  | high
  deriving DecidableEq, Repr, Inhabited

/-- What the environment answers to a `LineWrite` or `BusTx` (R12); the error value is opaque to the
block, so any type that can be compared will do for it (DESIGN CHOICE, safe: log entry 13). -/
inductive IoResult where
  | ok
  | err (e : Nat)
  deriving DecidableEq, Repr, Inhabited

/-- One value of the source-image accessor: the three channels (41_encoder.md R143). -/
structure Rgb where
  r : Nat
  g : Nat
  b : Nat
  deriving DecidableEq, Repr, Inhabited

/-- A point of a source image whose value the presenter has fixed. -/
structure SourcePoint where
  u : Int
  v : Int
  colour : Rgb
  deriving DecidableEq, Repr, Inhabited

/-- The accessor `SRC(u, v)` presented with an `ENC_DRAW_IMAGE` request (R77, R143), as plain data: the
points listed have the value listed, every other point is the free value `Config.colour tag u v`
(93_implementation_defined.md U13). The block reads finitely many points of one image, so every
total accessor is one of these as far as the block can tell (DESIGN CHOICE, safe: log entry 5). -/
structure SourceImage where
  tag : Nat
  points : List SourcePoint
  deriving DecidableEq, Repr, Inhabited

/-- One request presented on a port (R70, R72). `word1` is read only when `word0` has opcode `0x12`
(R85), and `image` only by `ENC_DRAW_IMAGE` (R77). -/
structure Request where
  port : Port
  word0 : Word
  word1 : Word
  image : SourceImage
  deriving DecidableEq, Repr, Inhabited

/-! ### Durations -/

/-- A real duration as plain data (R7, R8): a rational amount of some fixed unit, or the positive real numbered `n`.
No rule computes with a duration; it is compared with zero and put into the trace (DESIGN CHOICE, unsafe only for a claim
that two of these data are different durations: log entry 3). -/
inductive Duration where
  | rational (q : Rat)
  | real (n : Nat)
  deriving DecidableEq, Repr

/-- The logarithm of the duration `Duration.real n`: any real number, so that the duration is any positive one (R7, U1).
A free value (DESIGN CHOICE, safe: log entry 3). -/
opaque Config.logDuration : Nat → ℝ

/-- `x` is the real number that `d` stands for. -/
def Duration.IsValue (d : Duration) (x : ℝ) : Prop :=
  match d with
  | .rational q => x = (q : ℝ)
  | .real n => x = Real.exp (Config.logDuration n)

/-- The duration is above zero. -/
def Duration.isPositive : Duration → Bool
  | .rational q => decide (0 < q)
  | .real _ => true

/-- The duration is zero or above. -/
def Duration.isNonneg : Duration → Bool
  | .rational q => decide (0 ≤ q)
  | .real _ => true

/-! ### Parameters -/

/-- What the collaborators supply at construction: the bus handle, the three output control lines and
the seven input lines (R9). -/
structure Wiring where
  bus : Bool
  dc : Bool
  rst : Bool
  cs : Bool
  inputs : BitVec 7
  deriving DecidableEq, Repr

/-- The implementation parameters of R7, which are also the block's read-only registers and constants:
`CFG.W`, `CFG.H` (R28), `CFG.T` (R34), `CFG.ACTIVE_LOW` (R35), `INIT_SEQ`, `PAGE_SEL`, `COL_LO`, `COL_HI`,
`PANEL_OFF` (R27). -/
structure Params where
  /-- `W`, and `CFG.W`. -/
  width : Nat
  /-- `H`, and `CFG.H`. -/
  height : Nat
  /-- The segments S1 .. S11 of `INIT_SEQ` (R125). -/
  initSegments : List (List Byte)
  /-- `PAGE_SEL(0), PAGE_SEL(1), …` for the `NPAGES` pages. -/
  pageSel : List Byte
  /-- `COL_LO`. -/
  colLo : Byte
  /-- `COL_HI`. -/
  colHi : Byte
  /-- `PANEL_OFF`. -/
  panelOff : Byte
  /-- `RST_D1`, `RST_D2`, `RST_D3`: real durations (R8). -/
  rstD1 : Duration
  rstD2 : Duration
  rstD3 : Duration
  /-- `P0`, in `TIME_UNIT`s. -/
  poll0 : Nat
  /-- `T`, and `CFG.T`, in `TIME_UNIT`s. -/
  hold : Nat
  /-- `ACTIVE_LOW`, and `CFG.ACTIVE_LOW`: bit `i` for line `i` (R39). -/
  activeLow : BitVec 7
  /-- `CHANNEL_BITS`. -/
  channelBits : Nat
  /-- `TIME_UNIT`, a real duration. No rule reads it: it only names the unit of the integers of R162. -/
  timeUnit : Duration
  /-- What was supplied at construction. -/
  wiring : Wiring
  deriving DecidableEq, Repr

/-- `NPAGES = H / 8` (R7). -/
def Params.pages (c : Params) : Nat := c.height / 8

/-- The number of framebuffer bytes, `W * NPAGES` (R22). -/
def Params.bytes (c : Params) : Nat := c.width * c.pages

/-- `INIT_SEQ = S1 ++ S2 ++ ... ++ S11` (R125). -/
def Params.initSeq (c : Params) : List Byte := c.initSegments.flatten

/-- `PAGE_SEL(p)`; a valid configuration lists every page, so the default is never read there (DESIGN CHOICE, unsafe
for an invalid configuration only: log entry 14). -/
def Params.pageSelect (c : Params) (p : Nat) : Byte := c.pageSel.getD p 0#8

/-- A supplied set of lines is complete (R9). -/
abbrev Wiring.Complete (w : Wiring) : Prop :=
  w.bus = true ∧ w.dc = true ∧ w.rst = true ∧ w.cs = true ∧ w.inputs = BitVec.allOnes 7

/-- `W`, `H` and the page bytes fit together (R7, R9). -/
abbrev Params.ValidGeometry (c : Params) : Prop :=
  0 < c.width ∧ 0 < c.height ∧ c.height % 8 = 0 ∧ c.pageSel.length = c.pages ∧ c.pageSel.Nodup

/-- The eleven-segment structure of `INIT_SEQ`, and `PANEL_OFF` the command byte of its first segment
(R125, R149, D11). -/
abbrev Params.ValidInit (c : Params) : Prop :=
  c.initSegments.length = 11 ∧ (∀ seg ∈ c.initSegments, seg ≠ []) ∧
    c.initSegments.head?.bind List.head? = some c.panelOff

/-- The time and colour parameters of R7 and R9. -/
abbrev Params.ValidScalars (c : Params) : Prop :=
  0 < c.poll0 ∧ c.rstD1.isPositive = true ∧ c.rstD2.isPositive = true ∧ c.rstD3.isNonneg = true ∧
    c.timeUnit.isPositive = true ∧ (c.channelBits = 8 ∨ c.channelBits = 16)

/-- The configuration is valid (R9): only for such a one is there a block at all. -/
abbrev Params.Valid (c : Params) : Prop :=
  c.ValidGeometry ∧ c.ValidInit ∧ c.ValidScalars ∧ c.wiring.Complete

/-! ### The free values of a configuration

Each has no body: a statement that mentions one holds whatever it is. They are put together below so that
every valid configuration is covered and only valid ones are (DESIGN CHOICE, safe: log entry 2). -/

/-- `W - 1`. -/
opaque Config.freeWidth : Nat
/-- `NPAGES - 1`; at most 255, since `PAGE_SEL` must send different pages to different bytes
(DEDUCED, safe: log entry 2). -/
opaque Config.freePages : Fin 256
/-- `PAGE_SEL` as a permutation of the bytes: every injective function on at most 256 pages extends to one. -/
opaque Config.freePageSel : Equiv.Perm Byte
/-- `COL_LO`. -/
opaque Config.freeColLo : Byte
/-- `COL_HI`. -/
opaque Config.freeColHi : Byte
/-- The command byte of segment `j` of `INIT_SEQ`. -/
opaque Config.freeInitCommand : Nat → Byte
/-- The argument bytes of segment `j` of `INIT_SEQ`. -/
opaque Config.freeInitArguments : Nat → List Byte
/-- Whether `RST_D3` is zero rather than positive. -/
opaque Config.freeNoLastDelay : Bool
/-- `P0 - 1`. -/
opaque Config.freePoll : Nat
/-- `T`. -/
opaque Config.freeHold : Nat
/-- `ACTIVE_LOW`. -/
opaque Config.freeActiveLow : BitVec 7
/-- Whether `CHANNEL_BITS` is 16 rather than 8. -/
opaque Config.freeWideChannels : Bool

/-- The configuration of the block that `State.reset` constructs: free within R9. -/
def Config.params : Params where
  width := Config.freeWidth + 1
  height := 8 * (Config.freePages.val + 1)
  initSegments := (List.range 11).map fun j => Config.freeInitCommand j :: Config.freeInitArguments j
  pageSel := (List.range (Config.freePages.val + 1)).map fun p => Config.freePageSel (BitVec.ofNat 8 p)
  colLo := Config.freeColLo
  colHi := Config.freeColHi
  panelOff := Config.freeInitCommand 0
  rstD1 := .real 1
  rstD2 := .real 2
  rstD3 := if Config.freeNoLastDelay then .rational 0 else .real 3
  poll0 := Config.freePoll + 1
  hold := Config.freeHold
  activeLow := Config.freeActiveLow
  channelBits := if Config.freeWideChannels then 16 else 8
  timeUnit := .real 0
  wiring := { bus := true, dc := true, rst := true, cs := true, inputs := BitVec.allOnes 7 }

/-! ### The free values drawn from the environment (93_implementation_defined.md U6 to U8, U10, U13, U14) -/

/-- The answer to the `n`-th `LineWrite` or `BusTx` for which `Encoder.answers` lists none (R12, U7). A free value
(DESIGN CHOICE, safe: log entry 4). -/
opaque Config.ioResult : Nat → IoResult
/-- The level of the `n`-th `ReadLevel` for which `Debounce.levels` lists none (R12, U8). A free value (DESIGN CHOICE,
safe: log entry 4). -/
opaque Config.lineLevel : Nat → Level
/-- The value of the accessor number `tag` at a point the presenter did not list (R143, U13). A free value (DESIGN
CHOICE, safe: log entry 5). -/
opaque Config.colour : Nat → Int → Int → Rgb
/-- The requests presented during the `n`-th wait, in an order of acceptance (R57, R174, U5, U6, U14). A free
value (DESIGN CHOICE, safe: log entry 6). -/
opaque Config.arrivals : Nat → List Request
/-- What a read of `BS[i].start` gives while it is `UNSET`; R32 says no run reads it (U10). A free value
(DESIGN CHOICE, safe: log entry 10). -/
opaque Config.unsetStart : Nat → Nat
/-- What a 24-bit response field holds for a `W` or `H` that does not fit it (R80 states no value). A free
value (DESIGN CHOICE, safe: log entry 9). -/
opaque Config.wideField : Nat → BitVec 24
/-- What the 48-bit index field of `ERR_IO` holds for a `k` that does not fit it (R80 states no value). A
free value (DESIGN CHOICE, safe: log entry 9). -/
opaque Config.wideIndex : Nat → BitVec 48

end Sys2Proof
end

