-- ==== Sys2Proof/WellFormed.lean ====
section
/-! DEFINITION. Which operation terms a request word can spell (30_encoding.md R75, R76, R82). -/

namespace Sys2Proof

/-- A coordinate that a 12-bit two's-complement field holds: `-2048 .. 2047` (R75). -/
def coordFits (x : Int) : Bool := decide (-2048 ≤ x) && decide (x ≤ 2047)

/-- A time value that a 48-bit field holds: `0 .. 2^48 - 1` (R76). -/
def timeFits (t : Nat) : Bool := decide (t < 2 ^ 48)

/-- Every operand lies in its field's range (R75, R76): the term has a word, legal or not. -/
def Instr.fitsFields : Instr → Bool
  | .fbClear _ => true
  | .fbSet x y _ => coordFits x && coordFits y
  | .fbGet x y => coordFits x && coordFits y
  | .fbBounds => true
  | .encInit => true
  | .encUpdate => true
  | .encDrawImage x0 y0 x1 y1 sx sy =>
    coordFits x0 && coordFits y0 && coordFits x1 && coordFits y1 && coordFits sx && coordFits sy
  | .encPowerOff => true
  | .dbTick now => timeFits now
  | .dbStart => true
  | .dbStop => true
  | .dbSetPoll p => timeFits p

/-- The term is not one that R82 refuses for its operand: `DB_SET_POLL` needs `p > 0`. -/
def Instr.operandLegal : Instr → Bool
  | .dbSetPoll p => decide (0 < p)
  | .fbClear _ => true
  | .fbSet _ _ _ => true
  | .fbGet _ _ => true
  | .fbBounds => true
  | .encInit => true
  | .encUpdate => true
  | .encDrawImage _ _ _ _ _ _ => true
  | .encPowerOff => true
  | .dbTick _ => true
  | .dbStart => true
  | .dbStop => true

/-- The term is what some legal request word decodes to. -/
def Instr.wellFormed (i : Instr) : Bool := i.fitsFields && i.operandLegal

end Sys2Proof
end

