-- ==== Sys2Proof/Decode.lean ====
section
/-! DEFINITION. The request encoding of 30_encoding.md: the opcode map (R78), the formats (R73), operand
assembly (R74 to R76), decoding (R84, R85) with the refusals of R82 by name, and, after it, the encoder. -/

namespace Sys2Proof

/-- The twelve operations of the opcode map (R78). -/
inductive Op where
  | fbClear | fbSet | fbGet | fbBounds
  | encInit | encUpdate | encDrawImage | encPowerOff
  | dbTick | dbStart | dbStop | dbSetPoll
  deriving DecidableEq, Repr

/-- The word formats (R73). -/
inductive Format where
  | n | b | p | q | r2 | t
  deriving DecidableEq, Repr

/-- Why a word or word pair names no operation (R82), one name per reason. -/
inductive DecodeError where
  /-- The opcode is not in R78. -/
  | unassignedOpcode (op : Byte)
  /-- A reserved bit of word 0 is set (R81). -/
  | reservedBits (op : Byte)
  /-- `ENC_DRAW_IMAGE` whose word 1 does not match. -/
  | badSecondWord
  /-- `DB_SET_POLL` with `t = 0`. -/
  | zeroInterval
  /-- The port does not own the opcode (R72). -/
  | wrongPort (op : Byte)
  deriving DecidableEq, Repr

/-- The operations in the order of R78. -/
def Op.all : List Op :=
  [.fbClear, .fbSet, .fbGet, .fbBounds, .encInit, .encUpdate, .encDrawImage, .encPowerOff,
   .dbTick, .dbStart, .dbStop, .dbSetPoll]

/-- The opcode column of R78. -/
def Op.byte : Op → Byte
  | .fbClear => 0x01#8
  | .fbSet => 0x02#8
  | .fbGet => 0x03#8
  | .fbBounds => 0x04#8
  | .encInit => 0x10#8
  | .encUpdate => 0x11#8
  | .encDrawImage => 0x12#8
  | .encPowerOff => 0x13#8
  | .dbTick => 0x20#8
  | .dbStart => 0x21#8
  | .dbStop => 0x22#8
  | .dbSetPoll => 0x23#8

/-- The format column of R78. -/
def Op.format : Op → Format
  | .fbClear => .b
  | .fbSet => .p
  | .fbGet => .q
  | .fbBounds => .n
  | .encInit => .n
  | .encUpdate => .n
  | .encDrawImage => .r2
  | .encPowerOff => .n
  | .dbTick => .t
  | .dbStart => .n
  | .dbStop => .n
  | .dbSetPoll => .t

/-- The port that owns the opcode (R72). -/
def Op.port : Op → Port
  | .fbClear => .encoder
  | .fbSet => .encoder
  | .fbGet => .encoder
  | .fbBounds => .encoder
  | .encInit => .encoder
  | .encUpdate => .encoder
  | .encDrawImage => .encoder
  | .encPowerOff => .encoder
  | .dbTick => .debounce
  | .dbStart => .debounce
  | .dbStop => .debounce
  | .dbSetPoll => .debounce

/-- The reserved bits of word 0, the positions R73 marks. -/
def Format.reserved : Format → Word
  | .n => 0x00FFFFFFFFFFFFFF#64
  | .b => 0x00FFFFFFFFFFFFFE#64
  | .p => 0x00FFFFFFFE000000#64
  | .q => 0x00FFFFFFFF000000#64
  | .r2 => 0x00FF000000000000#64
  | .t => 0x00FF000000000000#64

/-- How many words the format has (R73, R85). -/
def Format.words : Format → Nat
  | .n => 1
  | .b => 1
  | .p => 1
  | .q => 1
  | .r2 => 2
  | .t => 1

/-- The "match" column of R78. -/
def Op.match0 (o : Op) : Word := o.byte ++ 0#56

/-- The "mask" column of R78. -/
def Op.mask0 (o : Op) : Word := 0xFF00000000000000#64 ||| o.format.reserved

/-- The opcode of a request word, bits `[63:56]` (R71). -/
def opcodeOf (w0 : Word) : Byte := w0.extractLsb' 56 8

/-- The operation an opcode names (R78). -/
def Op.ofByte (b : Byte) : Option Op := Op.all.find? fun o => o.byte == b

/-- `sext_12` of the field whose least significant bit is `lo` (R75). -/
def coordField (w : Word) (lo : Nat) : Int := (w.extractLsb' lo 12).toInt

/-- `zext_64` of bits `[47:0]` (R76). -/
def timeField (w : Word) : Nat := (w.extractLsb' 0 48).toNat

/-- Word 1 of `ENC_DRAW_IMAGE` matches `0xFF00000000000000` under mask `0xFFFFFFFFFF000000` (R78). -/
def secondWordMatches (w1 : Word) : Bool := w1 &&& 0xFFFFFFFFFF000000#64 == 0xFF00000000000000#64

/-- The operands of an operation whose reserved bits are zero (R74, R75, R76), or the refusal that its
operand words call for (R82). -/
def operandsOf (w0 w1 : Word) : Op → Except DecodeError Instr
  | .fbClear => .ok (.fbClear (w0.getLsbD 0))
  | .fbSet => .ok (.fbSet (coordField w0 12) (coordField w0 0) (w0.getLsbD 24))
  | .fbGet => .ok (.fbGet (coordField w0 12) (coordField w0 0))
  | .fbBounds => .ok .fbBounds
  | .encInit => .ok .encInit
  | .encUpdate => .ok .encUpdate
  | .encDrawImage =>
    if secondWordMatches w1 then
      .ok (.encDrawImage (coordField w0 36) (coordField w0 24) (coordField w0 12) (coordField w0 0)
        (coordField w1 12) (coordField w1 0))
    else .error .badSecondWord
  | .encPowerOff => .ok .encPowerOff
  | .dbTick => .ok (.dbTick (timeField w0))
  | .dbStart => .ok .dbStart
  | .dbStop => .ok .dbStop
  | .dbSetPoll => if timeField w0 = 0 then .error .zeroInterval else .ok (.dbSetPoll (timeField w0))

/-- Decoding, total on every word and word pair (R84). `w1` is looked at only for opcode `0x12` (R85). -/
def decode (w0 w1 : Word) : Except DecodeError Instr :=
  match Op.ofByte (opcodeOf w0) with
  | none => .error (.unassignedOpcode (opcodeOf w0))
  | some o =>
    if w0 &&& o.format.reserved = 0#64 then operandsOf w0 w1 o
    else .error (.reservedBits (opcodeOf w0))

/-- The operation an instruction is. -/
def Instr.op : Instr → Op
  | .fbClear _ => .fbClear
  | .fbSet _ _ _ => .fbSet
  | .fbGet _ _ => .fbGet
  | .fbBounds => .fbBounds
  | .encInit => .encInit
  | .encUpdate => .encUpdate
  | .encDrawImage _ _ _ _ _ _ => .encDrawImage
  | .encPowerOff => .encPowerOff
  | .dbTick _ => .dbTick
  | .dbStart => .dbStart
  | .dbStop => .dbStop
  | .dbSetPoll _ => .dbSetPoll

/-- Decoding at a port: a word on a port that does not own its opcode is illegal (R72, R82). -/
def decodeOn (port : Port) (w0 w1 : Word) : Except DecodeError Instr :=
  match decode w0 w1 with
  | .error e => .error e
  | .ok i => if i.op.port = port then .ok i else .error (.wrongPort (opcodeOf w0))

/-- The port that owns an opcode, taken from its numeric range (R72); an unassigned opcode is illegal on either. -/
def ownerPort (op : Byte) : Port := if op < 0x20#8 then .encoder else .debounce

/-! ### The encoder -/

/-- A 12-bit coordinate field (R75). -/
def encodeCoord (x : Int) : BitVec 12 := BitVec.ofInt 12 x

/-- A 48-bit time field (R76). -/
def encodeTime (t : Nat) : BitVec 48 := BitVec.ofNat 48 t

/-! One packing per format, from the most significant field down (R71, R73). -/

/-- Format `N`: the opcode and 56 reserved bits. -/
def packN (op : Byte) : Word := op ++ 0#56

/-- Format `B`: 55 reserved bits, then the bit. -/
def packB (op : Byte) (v : Bool) : Word := op ++ 0#55 ++ BitVec.ofBool v

/-- Format `P`: 31 reserved bits, `on`, `xf`, `yf`. -/
def packP (op : Byte) (on : Bool) (xf yf : BitVec 12) : Word := op ++ 0#31 ++ BitVec.ofBool on ++ xf ++ yf

/-- Format `Q`: 32 reserved bits, `xf`, `yf`. The second word of format `R2` is laid out alike under `0xFF`. -/
def packQ (op : Byte) (xf yf : BitVec 12) : Word := op ++ 0#32 ++ xf ++ yf

/-- Format `R2`, word 0: 8 reserved bits, then the four rectangle fields. -/
def packR2 (op : Byte) (x0f y0f x1f y1f : BitVec 12) : Word := op ++ 0#8 ++ x0f ++ y0f ++ x1f ++ y1f

/-- Format `T`: 8 reserved bits, then the time field. -/
def packT (op : Byte) (tf : BitVec 48) : Word := op ++ 0#8 ++ tf

/-- Word 0 of an instruction (R73, R78). -/
def encodeWord0 : Instr → Word
  | .fbClear on => packB Op.fbClear.byte on
  | .fbSet x y on => packP Op.fbSet.byte on (encodeCoord x) (encodeCoord y)
  | .fbGet x y => packQ Op.fbGet.byte (encodeCoord x) (encodeCoord y)
  | .fbBounds => packN Op.fbBounds.byte
  | .encInit => packN Op.encInit.byte
  | .encUpdate => packN Op.encUpdate.byte
  | .encDrawImage x0 y0 x1 y1 _ _ =>
    packR2 Op.encDrawImage.byte (encodeCoord x0) (encodeCoord y0) (encodeCoord x1) (encodeCoord y1)
  | .encPowerOff => packN Op.encPowerOff.byte
  | .dbTick now => packT Op.dbTick.byte (encodeTime now)
  | .dbStart => packN Op.dbStart.byte
  | .dbStop => packN Op.dbStop.byte
  | .dbSetPoll p => packT Op.dbSetPoll.byte (encodeTime p)

/-- Word 1: only `ENC_DRAW_IMAGE` has one (R73); for the others the zero word stands in its place. -/
def encodeWord1 : Instr → Word
  | .encDrawImage _ _ _ _ sx sy => packQ 0xFF#8 (encodeCoord sx) (encodeCoord sy)
  | .fbClear _ => 0#64
  | .fbSet _ _ _ => 0#64
  | .fbGet _ _ => 0#64
  | .fbBounds => 0#64
  | .encInit => 0#64
  | .encUpdate => 0#64
  | .encPowerOff => 0#64
  | .dbTick _ => 0#64
  | .dbStart => 0#64
  | .dbStop => 0#64
  | .dbSetPoll _ => 0#64

/-- The words of a well-formed instruction. -/
def encode (i : Instr) : Word × Word := (encodeWord0 i, encodeWord1 i)

/-! ### The host's numbering of an instruction's bits -/

/-- Word `j` of an instruction whose bits are `w`, bit 0 the least significant bit of word 0; bits from
`nbits` up are zero. -/
def tableWord (nbits w j : Nat) : Word := BitVec.ofNat 64 ((w % 2 ^ nbits) / 2 ^ (64 * j))

/-- The instruction the decoder reads from the bits `w` (bits from `nbits` up are zero). -/
def decodeTableWord (nbits w : Nat) : Option Instr :=
  (decode (tableWord nbits w 0) (tableWord nbits w 1)).toOption

end Sys2Proof
end

