-- ==== Sys2Proof/Machine/State.lean ====
section
/-! DEFINITION. The state of the block (10_state.md) as plain data, and its value after reset
(70_reset_and_hazards.md R220, R221). The two sub-blocks share no state (00_scope.md R3), so each is a
structure of its own; what stands outside both is the configuration and the requests presented. -/

namespace Sys2Proof.Machine

/-! ### Names of things -/

/-- The seven input lines, in index order (R15, R30). -/
inductive Line where
  | up | down | left | right | button1 | button2 | button3
  deriving DecidableEq, Repr

/-- The three output control lines (R12, R25). -/
inductive OutLine where
  | dc | rst | cs
  deriving DecidableEq, Repr

/-- What the block knows of an output line's level (R25). -/
inductive OutLevel where
  | low | high | unknown
  deriving DecidableEq, Repr

/-- The mode of a bus transaction (41_encoder.md R121). -/
inductive TxnMode where
  | cmd | data
  deriving DecidableEq, Repr

/-- The kinds of event the debounce sub-block emits (R12). -/
inductive EventKind where
  | click | hold | release
  deriving DecidableEq, Repr

/-- The debounce lock (R37). -/
inductive Lock where
  | free | held
  deriving DecidableEq, Repr

/-! ### Events and responses -/

/-- An interface primitive of the encoder (R12). -/
inductive Prim where
  | lineWrite (l : OutLine) (lvl : Level)
  | busTx (bytes : List Byte)
  | delay (d : Duration)
  deriving DecidableEq, Repr

/-- An entry of `TR_E`: a primitive and its result (R41); `Delay` always has the result `ok` (R12). -/
structure EncEvent where
  prim : Prim
  result : IoResult
  deriving DecidableEq, Repr

/-- An entry of `TR_D` (R41): a level read with its value, or an event record delivered (R176). -/
inductive DbEvent where
  | readLevel (l : Line) (lvl : Level)
  | emit (l : Line) (kind : EventKind) (t : Nat)
  deriving DecidableEq, Repr

/-- What a response says, before it is laid out as a word (R13, R80). -/
inductive Reply where
  /-- `OK` with no value. -/
  | ok
  /-- `OK` of `FB_GET`. -/
  | pixel (on : Bool)
  /-- `OK` of `FB_BOUNDS`. -/
  | bounds (w h : Nat)
  /-- `ERR_IO`: the environment's error, unchanged (R191), and the index of the failing primitive. -/
  | errIo (e : Nat) (k : Nat)
  /-- `ERR_ILLEGAL`: the opcode byte of the refused word. -/
  | errIllegal (op : Byte)
  deriving DecidableEq, Repr

/-- Where a response of the debounce sub-block goes (R40, R80; DEDUCED, safe: log entry 11). -/
inductive ReplyTo where
  | host | pollTimer
  deriving DecidableEq, Repr

/-- A response of the debounce sub-block. -/
structure DbReply where
  dest : ReplyTo
  reply : Reply
  deriving DecidableEq, Repr

/-! ### The sub-blocks -/

/-- The framebuffer `FB` (R22): the bytes that differ from what an unlisted byte reads as, addresses
strictly rising. Its address space is `0 .. W * NPAGES - 1` (R50, R51). -/
abbrev Memory := List Host.Cell

/-- `OUT.DC`, `OUT.RST`, `OUT.CS` (R25). -/
structure OutLines where
  dc : OutLevel
  rst : OutLevel
  cs : OutLevel
  deriving DecidableEq, Repr

/-- The encoder sub-block. -/
structure Encoder where
  /-- `FB` (R22). -/
  fb : Memory
  /-- `OUT` (R25). -/
  out : OutLines
  /-- `ENC.busy` (R29). -/
  busy : Bool
  /-- `ENC.k` (R29). -/
  k : Nat
  /-- `TR_E` (R41), oldest first. -/
  trace : List EncEvent
  /-- The responses given on the encoder response port (R40), oldest first. -/
  responses : List Reply
  /-- The answers the environment has ready for the next primitives that can fail, in order; when none is
  left the answer is the free value `Config.ioResult draws`. The model's own field (DESIGN CHOICE, safe: log entry
  4). -/
  answers : List IoResult
  /-- How many free answers have been drawn. The model's own field (log entry 4). -/
  draws : Nat
  deriving DecidableEq, Repr

/-- An entry of the ButtonState file (R30); `start = none` is the spec's `UNSET` (R31). -/
structure ButtonState where
  pressed : Bool
  start : Option Nat
  deriving DecidableEq, Repr

/-- The ButtonState file `BS[0..6]` (R30). -/
structure ButtonFile where
  up : ButtonState
  down : ButtonState
  left : ButtonState
  right : ButtonState
  button1 : ButtonState
  button2 : ButtonState
  button3 : ButtonState
  deriving DecidableEq, Repr

/-- The debounce sub-block. -/
structure Debounce where
  /-- `BS` (R30). -/
  bs : ButtonFile
  /-- `CFG.P` (R33). -/
  poll : Nat
  /-- `DB.running` (R36). -/
  running : Bool
  /-- `DB.lock` (R37). -/
  lock : Lock
  /-- `TR_D` (R41), oldest first. -/
  trace : List DbEvent
  /-- The responses given (R80), oldest first, each with where it goes. -/
  responses : List DbReply
  /-- The levels the environment has ready for the next `ReadLevel`s, in order; when none is left the level
  is the free value `Config.lineLevel draws`. The model's own field (DESIGN CHOICE, safe: log entry 4). -/
  levels : List Level
  /-- How many free levels have been drawn. The model's own field (log entry 4). -/
  draws : Nat
  deriving DecidableEq, Repr

/-- The whole machine. -/
structure State where
  /-- The read-only registers and constants: `CFG.W`, `CFG.H`, `CFG.T`, `CFG.ACTIVE_LOW`, `INIT_SEQ`, `PAGE_SEL`,
  `COL_LO`, `COL_HI`, `PANEL_OFF`, the delays (R27, R28, R34, R35). -/
  cfg : Params
  /-- The encoder sub-block. -/
  enc : Encoder
  /-- The debounce sub-block. -/
  db : Debounce
  /-- The requests presented and not yet answered, in an order of acceptance (R57, R196; DESIGN CHOICE,
  safe: log entry 6). -/
  pending : List Request
  /-- `SRC` of the request being performed (R77; log entry 5). -/
  image : SourceImage
  /-- How often the block has waited for the environment. The model's own field (log entry 6). -/
  waits : Nat
  deriving DecidableEq, Repr

/-! ### How a step can stop -/

/-- The faults of the block: none. "No behaviour of the block is `fault` or `stuck`"
(93_implementation_defined.md): no operation can hang, every error is a response (R190), and no access of a
valid configuration leaves the framebuffer's address space (R56). Nothing raises one; safe (DEDUCED: log entry 12). -/
inductive Fault where
  deriving DecidableEq, Repr

/-- The refusals. Every operation of the table has its meaning, and an illegal request is answered with
`ERR_ILLEGAL` in a next state (R82), so none is raised. -/
inductive Refusal where
  /-- An instruction with no meaning yet, by its mnemonic. Only an arm of `exec` may raise it, and none does; safe. -/
  | notModelled (mnemonic : String)
  deriving DecidableEq, Repr

/-! ### Reset -/

/-- The entry of a line not yet observed (R31). -/
def ButtonState.fresh : ButtonState := { pressed := false, start := none }

/-- The ButtonState file after reset (R31). -/
def ButtonFile.fresh : ButtonFile where
  up := .fresh
  down := .fresh
  left := .fresh
  right := .fresh
  button1 := .fresh
  button2 := .fresh
  button3 := .fresh

/-- The encoder sub-block after reset (R221). -/
def Encoder.fresh : Encoder where
  fb := []
  out := { dc := .unknown, rst := .unknown, cs := .unknown }
  busy := false
  k := 0
  trace := []
  responses := []
  answers := []
  draws := 0

/-- The debounce sub-block after reset with poll interval `P0` (R221). -/
def Debounce.fresh (p0 : Nat) : Debounce where
  bs := .fresh
  poll := p0
  running := false
  lock := .free
  trace := []
  responses := []
  levels := []
  draws := 0

/-- The block right after its construction with the configuration `c` (R220, R221). -/
def State.ofParams (c : Params) : State where
  cfg := c
  enc := .fresh
  db := .fresh c.poll0
  pending := []
  image := { tag := 0, points := [] }
  waits := 0

/-- Construction: an invalid configuration gives no block at all (R9, R190, R220). -/
def State.construct (c : Params) : Option State :=
  if c.Valid then some (State.ofParams c) else none

/-- The machine right after reset, with a configuration that is free within R9. -/
def State.reset : State := State.ofParams Config.params

end Sys2Proof.Machine
end

