-- ==== Sys2Proof/Machine/Operands.lean ====
section
/-! DEFINITION. What the operands of the operations mean: pixel coordinates (40_framebuffer.md R100), the
overlap of a target rectangle (41_encoder.md R144), source points and the threshold (R141, R143), line
indices and the level mapping (42_debounce.md R160, R161). -/

namespace Sys2Proof.Machine

/-! ### Pixels -/

/-- `InB(x, y)` (R100). -/
def inB (c : Params) (x y : Int) : Bool :=
  decide (0 ≤ x) && decide (x < c.width) && decide (0 ≤ y) && decide (y < c.height)

/-- `idx(x, y) = (y div 8) * W + x`, for an in-bounds pixel (R100). -/
def pixelIndex (c : Params) (x y : Int) : Nat := (y.toNat / 8) * c.width + x.toNat

/-- `bit(y) = y mod 8` (R100). -/
def pixelBit (y : Int) : Nat := y.toNat % 8

/-- The 8-bit mask `1 << bit(y)` (R102). -/
def pixelMask (y : Int) : Byte := 1#8 <<< pixelBit y

/-- A byte with the masked bit set to `on` (R102). -/
def withBit (b mask : Byte) (on : Bool) : Byte := if on then b ||| mask else b &&& ~~~mask

/-! ### Draw image -/

/-- The integers `lo .. hi - 1` in ascending order (R10). -/
def intRange (lo hi : Int) : List Int := (List.range (hi - lo).toNat).map fun (n : Nat) => lo + (n : Int)

/-- The destination pixels of the overlap `O`, in the order of R145's loops (R144). -/
def overlap (c : Params) (x0 y0 x1 y1 : Int) : List (Int × Int) :=
  (intRange (max y0 0) (min y1 c.height)).flatMap fun y =>
    (intRange (max x0 0) (min x1 c.width)).map fun x => (x, y)

/-- A pixel lies in the overlap `O` (R144). -/
def inOverlap (c : Params) (x0 y0 x1 y1 x y : Int) : Bool :=
  decide (max x0 0 ≤ x) && decide (x < min x1 c.width) && decide (max y0 0 ≤ y) && decide (y < min y1 c.height)

/-- A channel value: its low `CHANNEL_BITS` bits, so that it lies in `0 .. 2^N - 1` (R143; DESIGN CHOICE, safe: log entry
5). -/
def channel (c : Params) (v : Nat) : Nat := v % 2 ^ c.channelBits

/-- `SRC(u, v)` (R143): what the presenter listed, else the free value. -/
def sourceRead (c : Params) (img : SourceImage) (u v : Int) : Rgb :=
  let raw := match img.points.find? fun p => p.u == u && p.v == v with
    | some p => p.colour
    | none => Config.colour img.tag u v
  { r := channel c raw.r, g := channel c raw.g, b := channel c raw.b }

/-- `Lum(r, g, b) = (r + g + b) div 3` (R141). -/
def luminance (p : Rgb) : Nat := (p.r + p.g + p.b) / 3

/-- `On(r, g, b) = Lum(r, g, b) < 2^(N-1)` (R141). -/
def thresholdOn (c : Params) (p : Rgb) : Bool := decide (luminance p < 2 ^ (c.channelBits - 1))

/-- The polarity `ENC_DRAW_IMAGE` gives destination pixel `(x, y)`: source point
`(sx + (x - x0), sy + (y - y0))` (R144, R145). -/
def drawnOn (c : Params) (img : SourceImage) (x0 y0 sx sy x y : Int) : Bool :=
  thresholdOn c (sourceRead c img (sx + (x - x0)) (sy + (y - y0)))

/-! ### Input lines -/

/-- The line index (R30, D16). -/
def Line.index : Line → Nat
  | .up => 0
  | .down => 1
  | .left => 2
  | .right => 3
  | .button1 => 4
  | .button2 => 5
  | .button3 => 6

/-- The lines in the order every tick visits them (R161). -/
def Line.all : List Line := [.up, .down, .left, .right, .button1, .button2, .button3]

/-- `CFG.ACTIVE_LOW[i]` (R35, R39). -/
def activeLow (c : Params) (l : Line) : Bool := c.activeLow.getLsbD l.index

/-- `Map(i, lvl)` (R160). -/
def mapLevel (c : Params) (l : Line) (lvl : Level) : Bool :=
  if activeLow c l then lvl == .low else lvl == .high

/-- `BS[i]`. -/
def ButtonFile.get (f : ButtonFile) : Line → ButtonState
  | .up => f.up
  | .down => f.down
  | .left => f.left
  | .right => f.right
  | .button1 => f.button1
  | .button2 => f.button2
  | .button3 => f.button3

/-- `BS[i] <- b`. -/
def ButtonFile.set (f : ButtonFile) (l : Line) (b : ButtonState) : ButtonFile :=
  match l with
  | .up => { f with up := b }
  | .down => { f with down := b }
  | .left => { f with left := b }
  | .right => { f with right := b }
  | .button1 => { f with button1 := b }
  | .button2 => { f with button2 := b }
  | .button3 => { f with button3 := b }

/-! ### Output lines -/

/-- `OUT.l`. -/
def OutLines.get (o : OutLines) : OutLine → OutLevel
  | .dc => o.dc
  | .rst => o.rst
  | .cs => o.cs

/-- `OUT.l <- v`. -/
def OutLines.set (o : OutLines) (l : OutLine) (v : OutLevel) : OutLines :=
  match l with
  | .dc => { o with dc := v }
  | .rst => { o with rst := v }
  | .cs => { o with cs := v }

/-- A level driven on an output line. -/
def OutLevel.ofLevel : Level → OutLevel
  | .low => .low
  | .high => .high

end Sys2Proof.Machine
end

