-- ==== Sys2Proof/Machine/Flags.lean ====
section
/-! DEFINITION. The block has no condition codes (10_state.md R38). Its status is the status byte of each
response (30_encoding.md R79, R80), the event a line's tick classifies to (42_debounce.md R163, R167), and
the three-state view of a line, derived and not stored (00_scope.md R16). -/

namespace Sys2Proof.Machine

/-! ### Response words -/

/-- The status field, bits `[63:56]` (R79). -/
def Reply.status : Reply → Byte
  | .ok => 0x00#8
  | .pixel _ => 0x00#8
  | .bounds _ _ => 0x00#8
  | .errIo _ _ => 0x01#8
  | .errIllegal _ => 0x02#8

/-- A 24-bit field of `FB_BOUNDS`; a value that does not fit leaves the field free (DESIGN CHOICE, safe: log entry 9). -/
def field24 (v : Nat) : BitVec 24 := if v < 2 ^ 24 then BitVec.ofNat 24 v else Config.wideField v

/-- The 48-bit index field of `ERR_IO`; an index that does not fit leaves the field free (DESIGN CHOICE, safe: log
entry 9). -/
def field48 (k : Nat) : BitVec 48 := if k < 2 ^ 48 then BitVec.ofNat 48 k else Config.wideIndex k

/-- The payload, bits `[55:0]` (R80). -/
def Reply.payload : Reply → BitVec 56
  | .ok => 0#56
  | .pixel on => 0#55 ++ BitVec.ofBool on
  | .bounds w h => 0#8 ++ field24 w ++ field24 h
  | .errIo _ k => 0#8 ++ field48 k
  | .errIllegal op => 0#48 ++ op

/-- The response word (R79). -/
def Reply.word (r : Reply) : Word := r.status ++ r.payload

/-- The error value that travels beside the word of an `ERR_IO` (R80). -/
def Reply.error : Reply → Option Nat
  | .errIo e _ => some e
  | .ok => none
  | .pixel _ => none
  | .bounds _ _ => none
  | .errIllegal _ => none

/-! ### The classification of one line at one tick -/

/-- `BS[i].start` as a held tick reads it; `UNSET` is never read in a run (R32) and gives a free value (U10;
DESIGN CHOICE, safe: log entry 10). -/
def startOf (l : Line) (b : ButtonState) : Nat := b.start.getD (Config.unsetStart l.index)

/-- `e = now - BS[i].start`, a mathematical integer (R162). -/
def elapsed (now start : Nat) : Int := (now : Int) - (start : Int)

/-- `e >= CFG.T and e < CFG.T + CFG.P` (R167). -/
def inHoldWindow (hold poll : Nat) (e : Int) : Bool := decide ((hold : Int) ≤ e) && decide (e < (hold : Int) + (poll : Int))

/-- The event of one line at one tick, from its entry before, its level now and the time (R163, R166 to
R168). That a line pressed at a stop and seen released at the first tick after the start is a release edge like any
other, with its event, against a clause of R180, is a DESIGN CHOICE, unsafe: log entry 19. -/
def classify (hold poll now : Nat) (l : Line) (prev : ButtonState) (cur : Bool) : Option EventKind :=
  match prev.pressed, cur with
  | false, true => some .click
  | true, true => if inHoldWindow hold poll (elapsed now (startOf l prev)) then some .hold else none
  | true, false => some .release
  | false, false => none

/-- The entry of one line after one tick: `start` is written on a press edge only, `pressed` always (R163). -/
def nextButton (now : Nat) (prev : ButtonState) (cur : Bool) : ButtonState :=
  { pressed := cur, start := if !prev.pressed && cur then some now else prev.start }

/-! ### The derived view of a line -/

/-- The three states the source names for a line (R16). -/
inductive PressPhase where
  | idle | pressedBeforeThreshold | pressedAfterThreshold
  deriving DecidableEq, Repr

/-- The derived view of a line at a tick carrying `now` (R16). -/
def pressPhase (hold now : Nat) (l : Line) (b : ButtonState) : PressPhase :=
  if b.pressed then
    if elapsed now (startOf l b) < (hold : Int) then .pressedBeforeThreshold else .pressedAfterThreshold
  else .idle

end Sys2Proof.Machine
end

