-- ==== Sys2Proof/Machine/Ops.lean ====
section
/-! DEFINITION. The named operations every meaning is written over: framebuffer bytes, encoder primitives
and transactions (41_encoder.md R120 to R122), the debounce poll of one line (42_debounce.md R165), responses,
and the request ports (20_memory.md R57, 30_encoding.md R82).

The block has no trap entry and no return (60_exceptions.md R197, R198). What it has in their place is one
shared operation each: `runEncOp` ends an operation in `OK` or, at its first failing primitive, in
`ERR_IO` (R190 to R192); `refuseIllegal` answers a request that names no operation (R82). -/

namespace Sys2Proof.Machine

/-! ### Named updates -/

/-- The framebuffer replaced. -/
def State.withFb (s : State) (m : Memory) : State := { s with enc := { s.enc with fb := m } }

/-- The encoder sub-block replaced. -/
def State.withEnc (s : State) (e : Encoder) : State := { s with enc := e }

/-- The debounce sub-block replaced. -/
def State.withDb (s : State) (d : Debounce) : State := { s with db := d }

/-- The sequencer at the start of an operation: busy, at index 0 (R21, R29). -/
def Encoder.begin (e : Encoder) : Encoder := { e with busy := true, k := 0 }

/-! ### Framebuffer bytes (R11, R50) -/

/-- What a byte that is not listed reads as: the reset value of the framebuffer (R24, D5; unsafe as D5 says: log
entry 12). -/
def unlistedByte : Byte := 0x00#8

/-- `FB[i]`. -/
def Memory.read : Memory → Nat → Byte
  | [], _ => unlistedByte
  | (a, b) :: rest, i => if i = a then b else Memory.read rest i

/-- A cell put in front, unless an unlisted byte already reads so. -/
def Memory.cons (i : Nat) (v : Byte) (rest : Memory) : Memory :=
  if v = unlistedByte then rest else (i, v) :: rest

/-- `FB[i] <- v`. -/
def Memory.write : Memory → Nat → Byte → Memory
  | [], i, v => Memory.cons i v []
  | (a, b) :: rest, i, v =>
    if i < a then Memory.cons i v ((a, b) :: rest)
    else if i = a then Memory.cons i v rest
    else (a, b) :: Memory.write rest i v

/-- `for i in 0 .. n - 1: FB[i] <- v` (R101); bytes from `n` up are left alone. -/
def Memory.fill (m : Memory) (n : Nat) (v : Byte) : Memory :=
  (if v = unlistedByte then [] else (List.range n).map fun i => (i, v)) ++ m.filter fun c => decide (n ≤ c.1)

/-- The canonical form: addresses strictly rising, no listed byte that reads as if unlisted. -/
def Memory.wf : Memory → Bool
  | [] => true
  | [c] => c.2 != unlistedByte
  | c :: d :: rest => c.2 != unlistedByte && decide (c.1 < d.1) && Memory.wf (d :: rest)

/-- Every listed address lies in the framebuffer space `0 .. n - 1` (R50, R51). -/
def Memory.within (n : Nat) (m : Memory) : Bool := m.all fun c => decide (c.1 < n)

/-! ### Pixels (R100, R102, R103) -/

/-- The bit of pixel `(x, y)`, in bounds or not. -/
def getPixel (c : Params) (m : Memory) (x y : Int) : Bool :=
  (Memory.read m (pixelIndex c x y)).getLsbD (pixelBit y)

/-- `FB_SET`'s effect on the framebuffer: the one addressed bit in bounds, nothing out of bounds (R102). -/
def setPixel (c : Params) (m : Memory) (x y : Int) (on : Bool) : Memory :=
  if inB c x y then
    Memory.write m (pixelIndex c x y) (withBit (Memory.read m (pixelIndex c x y)) (pixelMask y) on)
  else m

/-! ### Encoder primitives -/

/-- The environment's next answer to a primitive that can fail (R12). -/
def drawAnswer (e : Encoder) : IoResult × Encoder :=
  match e.answers with
  | r :: rest => (r, { e with answers := rest })
  | [] => (Config.ioResult e.draws, { e with draws := e.draws + 1 })

/-- The result of a primitive: `Delay` never fails, the others draw an answer (R12, R120). -/
def primResult (p : Prim) (e : Encoder) : IoResult × Encoder :=
  match p with
  | .delay _ => (.ok, e)
  | .lineWrite _ _ => drawAnswer e
  | .busTx _ => drawAnswer e

/-- `OUT` after a primitive with a result: a written line holds its level, or is `UNKNOWN` if the write
failed (R25, R120). -/
def outAfter (o : OutLines) (p : Prim) (r : IoResult) : OutLines :=
  match p, r with
  | .lineWrite l lvl, .ok => o.set l (.ofLevel lvl)
  | .lineWrite l _, .err _ => o.set l .unknown
  | .busTx _, _ => o
  | .delay _, _ => o

/-- `Do(prim)` without its raise: perform, append to `TR_E`, advance `ENC.k`, update `OUT` (R120). -/
def doPrim (p : Prim) (e : Encoder) : IoResult × Encoder :=
  let (r, e1) := primResult p e
  (r, { e1 with trace := e1.trace ++ [{ prim := p, result := r }], k := e1.k + 1, out := outAfter e1.out p r })

/-- A sequence of `Do`s: it stops at the first error, and reports that error with the index of the failing
primitive (R13, R120, R195). -/
def runPrims : List Prim → Encoder → Option (Nat × Nat) × Encoder
  | [], e => (none, e)
  | p :: ps, e =>
    match doPrim p e with
    | (.ok, e') => runPrims ps e'
    | (.err x, e') => (some (x, e.k), e')

/-- The level of `DC` in a mode: low for a command, high for data (R121). -/
def TxnMode.level : TxnMode → Level
  | .cmd => .low
  | .data => .high

/-- `Txn(mode, bytes)` (R121). -/
def txn (mode : TxnMode) (bytes : List Byte) : List Prim :=
  [.lineWrite .dc mode.level, .lineWrite .cs .low, .busTx bytes, .lineWrite .cs .high]

/-- `Cmd(b)` (R122). -/
def cmd (b : Byte) : List Prim := txn .cmd [b]

/-- `Data(bytes)` (R122). -/
def dataTxn (bytes : List Byte) : List Prim := txn .data bytes

/-- A request's response on the encoder response port (R40). -/
def Encoder.push (e : Encoder) (r : Reply) : Encoder := { e with responses := e.responses ++ [r] }

/-- The end of an encoder operation: its response, and `ENC.busy` false (R29). -/
def respondEnc (r : Reply) (s : State) : State := { s with enc := { s.enc.push r with busy := false } }

/-- How an operation's primitives ended, as a response (R13, R190). -/
def replyOf : Option (Nat × Nat) → Reply
  | none => .ok
  | some (e, k) => .errIo e k

/-- An encoder operation made of primitives, from index 0 (R21) to its response. -/
def runEncOp (ps : List Prim) (s : State) : State :=
  let (outcome, e) := runPrims ps s.enc.begin
  respondEnc (replyOf outcome) (s.withEnc e)

/-! ### The debounce poll -/

/-- `ReadLevel(i)`: the environment's next level (R12). -/
def drawLevel (d : Debounce) : Level × Debounce :=
  match d.levels with
  | lvl :: rest => (lvl, { d with levels := rest })
  | [] => (Config.lineLevel d.draws, { d with draws := d.draws + 1 })

/-- What one line's visit appends to `TR_D`: the read, then at most one event (R63, R165). -/
def lineEvents (l : Line) (lvl : Level) (now : Nat) (kind : Option EventKind) : List DbEvent :=
  .readLevel l lvl :: (kind.map fun k => DbEvent.emit l k now).toList

/-- One line's visit by a tick (R163, R165). -/
def pollLine (c : Params) (now : Nat) (d : Debounce) (l : Line) : Debounce :=
  let (lvl, d1) := drawLevel d
  let cur := mapLevel c l lvl
  let prev := d1.bs.get l
  { d1 with
    bs := d1.bs.set l (nextButton now prev cur)
    trace := d1.trace ++ lineEvents l lvl now (classify c.hold d1.poll now l prev cur) }

/-- One poll of all seven lines (R161, R165). -/
def pollAll (c : Params) (now : Nat) (d : Debounce) : Debounce := Line.all.foldl (pollLine c now) d

/-- A request's response from the debounce sub-block (R40, R80). -/
def Debounce.push (d : Debounce) (dest : ReplyTo) (r : Reply) : Debounce :=
  { d with responses := d.responses ++ [{ dest := dest, reply := r }] }

/-- The end of a debounce operation: its response, and the lock released (R37). -/
def respondDb (dest : ReplyTo) (r : Reply) (s : State) : State :=
  { s with db := { s.db.push dest r with lock := .free } }

/-! ### The request ports -/

/-- The operation a presented request names, or why it names none (R82). -/
def decodeRequest (r : Request) : Except DecodeError Instr := decodeOn r.port r.word0 r.word1

/-- The port can accept: the encoder while `ENC.busy` is false (R29, R57), the debounce port while the lock is
free (R37). -/
def portFree (s : State) : Port → Bool
  | .encoder => !s.enc.busy
  | .debounce => s.db.lock == .free

/-- A request that can be dealt with now: an illegal one always, since it is refused before acceptance (R82);
a legal one when its port is free (DEDUCED, safe: log entry 7). -/
def requestReady (s : State) (r : Request) : Bool :=
  match decodeRequest r with
  | .ok _ => portFree s r.port
  | .error _ => true

/-- The first request that is ready, and the others in their order (DESIGN CHOICE, safe: log entry 6). -/
def takeReady (s : State) : List Request → Option (Request × List Request)
  | [] => none
  | r :: rest =>
    if requestReady s r then some (r, rest)
    else (takeReady s rest).map fun (q, others) => (q, r :: others)

/-- Acceptance of a legal request: it leaves the port, its accessor is at hand, and its sub-block is taken
(`ENC.busy` true and the sequencer at 0, R29; or the lock held, R37). DEDUCED, safe: log entry 8. -/
def accept (r : Request) (rest : List Request) (s : State) : State :=
  match r.port with
  | .encoder => { s with pending := rest, image := r.image, enc := s.enc.begin }
  | .debounce => { s with pending := rest, image := r.image, db := { s.db with lock := .held } }

/-- Who gets the response to a word refused on the debounce port: the poll timer for a tick's opcode (R72;
DEDUCED, safe: log entry 11). -/
def refusedTo (op : Byte) : ReplyTo := if op = Op.dbTick.byte then .pollTimer else .host

/-- The refusal of an illegal request: response `ERR_ILLEGAL` with the opcode byte, and nothing else (R80,
R82). -/
def refuseIllegal (r : Request) (rest : List Request) (s : State) : State :=
  let op := opcodeOf r.word0
  match r.port with
  | .encoder => { s with pending := rest, enc := s.enc.push (.errIllegal op) }
  | .debounce => { s with pending := rest, db := s.db.push (refusedTo op) (.errIllegal op) }

/-- Nothing is ready: the block waits (R222), and the environment may present requests meanwhile (DESIGN CHOICE, safe: log
entry 6). -/
def awaitRequests (s : State) : State :=
  { s with pending := s.pending ++ Config.arrivals s.waits, waits := s.waits + 1 }

/-- The request whose words are `w` in the host's numbering, on the port that owns its opcode; no point of its
source image is listed, so every value of the accessor is free (log entry 17). -/
def tableRequest (nbits w : Nat) : Request where
  port := ownerPort (opcodeOf (tableWord nbits w 0))
  word0 := tableWord nbits w 0
  word1 := tableWord nbits w 1
  image := { tag := 0, points := [] }

/-- The request is the next to be dealt with: first in its order, both ports free. -/
def presentFirst (r : Request) (s : State) : State :=
  { s with pending := r :: s.pending, enc := { s.enc with busy := false }, db := { s.db with lock := .free } }

end Sys2Proof.Machine
end

