-- ==== Sys2Proof/Machine/Display.lean ====
section
/-! DEFINITION. The display protocol encoder family (41_encoder.md): each operation as the list of primitives
it performs, run up to the first error. -/

namespace Sys2Proof.Machine

/-- `ResetPulse` (R124). -/
def resetPulse (c : Params) : List Prim :=
  [.lineWrite .rst .high, .delay c.rstD1,
   .lineWrite .rst .low, .delay c.rstD2,
   .lineWrite .rst .high, .delay c.rstD3]

/-- The primitives of `ENC_INIT` (R133). -/
def initPrims (c : Params) : List Prim := resetPulse c ++ c.initSeq.flatMap cmd

/-- `PageData(p)` (R136, R139). -/
def pageData (c : Params) (m : Memory) (p : Nat) : List Byte :=
  (List.range c.width).map fun j => ~~~(Memory.read m (p * c.width + j))

/-- The primitives of one page of `ENC_UPDATE` (R137). -/
def pagePrims (c : Params) (m : Memory) (p : Nat) : List Prim :=
  cmd (c.pageSelect p) ++ cmd c.colLo ++ cmd c.colHi ++ dataTxn (pageData c m p)

/-- The primitives of `ENC_UPDATE` (R137). -/
def updatePrims (c : Params) (m : Memory) : List Prim := (List.range c.pages).flatMap (pagePrims c m)

/-- The framebuffer after the pixel writes of `ENC_DRAW_IMAGE` (R145). -/
def drawInto (c : Params) (img : SourceImage) (m : Memory) (x0 y0 x1 y1 sx sy : Int) : Memory :=
  (overlap c x0 y0 x1 y1).foldl (fun m p => setPixel c m p.1 p.2 (drawnOn c img x0 y0 sx sy p.1 p.2)) m

/-- `ENC_INIT` (R133). -/
def execEncInit (s : State) : Host.Outcome State Fault Refusal := .next (runEncOp (initPrims s.cfg) s)

/-- `ENC_UPDATE` (R137), also `displayAll` (R87). -/
def execEncUpdate (s : State) : Host.Outcome State Fault Refusal :=
  .next (runEncOp (updatePrims s.cfg s.enc.fb) s)

/-- `ENC_DRAW_IMAGE` (R145): the pixel writes, complete before the first primitive, then a full update. -/
def execEncDrawImage (x0 y0 x1 y1 sx sy : Int) (s : State) : Host.Outcome State Fault Refusal :=
  let fb := drawInto s.cfg s.image s.enc.fb x0 y0 x1 y1 sx sy
  .next (runEncOp (updatePrims s.cfg fb) (s.withFb fb))

/-- `ENC_POWER_OFF` (R149). -/
def execEncPowerOff (s : State) : Host.Outcome State Fault Refusal := .next (runEncOp (cmd s.cfg.panelOff) s)

end Sys2Proof.Machine
end

