-- ==== Sys2Proof/Machine/FrameBuffer.lean ====
section
/-! DEFINITION. The framebuffer family (40_framebuffer.md). None of these performs a primitive, can fail, or
writes anything but `FB`, apart from the response every request gets (R100). -/

namespace Sys2Proof.Machine

/-- `FB_CLEAR` (R101). -/
def execFbClear (on : Bool) (s : State) : Host.Outcome State Fault Refusal :=
  let b : Byte := if on then 0xFF#8 else 0x00#8
  .next (respondEnc .ok (s.withFb (s.enc.fb.fill s.cfg.bytes b)))

/-- `FB_SET` (R102). -/
def execFbSet (x y : Int) (on : Bool) (s : State) : Host.Outcome State Fault Refusal :=
  .next (respondEnc .ok (s.withFb (setPixel s.cfg s.enc.fb x y on)))

/-- `FB_GET` (R103): an out-of-bounds pixel reads off. -/
def execFbGet (x y : Int) (s : State) : Host.Outcome State Fault Refusal :=
  .next (respondEnc (.pixel (inB s.cfg x y && getPixel s.cfg s.enc.fb x y)) s)

/-- `FB_BOUNDS` (R104). -/
def execFbBounds (s : State) : Host.Outcome State Fault Refusal :=
  .next (respondEnc (.bounds s.cfg.width s.cfg.height) s)

end Sys2Proof.Machine
end

