-- ==== Sys2Proof/Machine/Polling.lean ====
section
/-! DEFINITION. The debounce family (42_debounce.md). Each operation holds the lock to its end (R37, R169). -/

namespace Sys2Proof.Machine

/-- `DB_TICK` (R165); while stopped it does nothing (R173). -/
def execDbTick (now : Nat) (s : State) : Host.Outcome State Fault Refusal :=
  let d := if s.db.running then pollAll s.cfg now s.db else s.db
  .next (respondDb .pollTimer .ok (s.withDb d))

/-- `DB_START` (R170): a second one changes nothing. `BS` stays as it was left (R180; the first tick after it: log entry
19). -/
def execDbStart (s : State) : Host.Outcome State Fault Refusal :=
  let d := if s.db.running then s.db else { s.db with running := true }
  .next (respondDb .host .ok (s.withDb d))

/-- `DB_STOP` (R171). -/
def execDbStop (s : State) : Host.Outcome State Fault Refusal :=
  .next (respondDb .host .ok (s.withDb { s.db with running := false }))

/-- `DB_SET_POLL` (R172); `p = 0` is refused as illegal and changes nothing (R82; the term itself reaches here only
outside `step`: DEDUCED, safe, log entry 11). -/
def execDbSetPoll (p : Nat) (s : State) : Host.Outcome State Fault Refusal :=
  if p = 0 then .next (respondDb .host (.errIllegal Op.dbSetPoll.byte) s)
  else .next (respondDb .host .ok (s.withDb { s.db with poll := p }))

end Sys2Proof.Machine
end

