-- ==== Sys2Proof/Machine/Dispatch.lean ====
section
/-! DEFINITION. The meaning of each operation term, one arm per constructor. -/

namespace Sys2Proof.Machine

def exec (i : Instr) (s : State) : Host.Outcome State Fault Refusal :=
  match i with
  | .fbClear on => Sys2Proof.Machine.execFbClear on s
  | .fbSet x y on => Sys2Proof.Machine.execFbSet x y on s
  | .fbGet x y => Sys2Proof.Machine.execFbGet x y s
  | .fbBounds => Sys2Proof.Machine.execFbBounds s
  | .encInit => Sys2Proof.Machine.execEncInit s
  | .encUpdate => Sys2Proof.Machine.execEncUpdate s
  | .encDrawImage x0 y0 x1 y1 sx sy => Sys2Proof.Machine.execEncDrawImage x0 y0 x1 y1 sx sy s
  | .encPowerOff => Sys2Proof.Machine.execEncPowerOff s
  | .dbTick now => Sys2Proof.Machine.execDbTick now s
  | .dbStart => Sys2Proof.Machine.execDbStart s
  | .dbStop => Sys2Proof.Machine.execDbStop s
  | .dbSetPoll p => Sys2Proof.Machine.execDbSetPoll p s

end Sys2Proof.Machine
end

