-- ==== Sys2Proof/Machine/Step.lean ====
section
/-! DEFINITION. One step of the machine: one request dealt with whole. An encoder operation may be performed as
one atomic step because nothing else reads or writes encoder state while `ENC.busy` is true (10_state.md R29),
and a debounce operation because it holds the lock throughout (R37). DEDUCED, safe: log entry 1. -/

namespace Sys2Proof.Machine

/-- The first request that is ready is refused if it is illegal (R82) and else accepted and performed; if none
is ready the block waits (R57, R222). -/
def step (s : State) : Host.Outcome State Fault Refusal :=
  match takeReady s s.pending with
  | none => .next (awaitRequests s)
  | some (r, rest) =>
    match decodeRequest r with
    | .error _ => .next (refuseIllegal r rest s)
    | .ok i => exec i (accept r rest s)

/-- `s` with the instruction whose bits are `w` presented as the next request: the block fetches nothing
(R21), so this stands for what a presenter does at a port (DESIGN CHOICE, safe: log entries 6 and 17). -/
def State.withFetchWord (s : State) (nbits w : Nat) : State := presentFirst (tableRequest nbits w) s

end Sys2Proof.Machine
end

