-- ==== Sys2Proof/Machine/Assembler.lean ====
section
/-! DEFINITION. The assembler syntax of requests (30_encoding.md R86, R87): one request per line, the mnemonic,
then operands separated by commas. A line is a list of characters; blanks around a token are skipped
(DESIGN CHOICE, safe: log entry 15). -/

namespace Sys2Proof.Machine

/-- A blank between tokens. -/
def isBlank (c : Char) : Bool := c == ' ' || c == '\t'

/-- The characters without the blanks in front. -/
def skipBlanks (cs : List Char) : List Char := cs.dropWhile isBlank

/-- The characters without the blanks on either side. -/
def trimBlanks (cs : List Char) : List Char := (skipBlanks (skipBlanks cs).reverse).reverse

/-- The value of a digit, decimal or hexadecimal. -/
def digitValue (c : Char) : Option Nat :=
  if '0' ≤ c ∧ c ≤ '9' then some (c.toNat - '0'.toNat)
  else if 'a' ≤ c ∧ c ≤ 'f' then some (c.toNat - 'a'.toNat + 10)
  else if 'A' ≤ c ∧ c ≤ 'F' then some (c.toNat - 'A'.toNat + 10)
  else none

/-- Digits in a base, most significant first, added to what stands before them. -/
def digitsFrom (base acc : Nat) : List Char → Option Nat
  | [] => some acc
  | c :: cs =>
    match digitValue c with
    | some d => if d < base then digitsFrom base (acc * base + d) cs else none
    | none => none

/-- A numeral of at least one digit. -/
def numeral (base : Nat) (cs : List Char) : Option Nat :=
  match cs with
  | [] => none
  | _ :: _ => digitsFrom base 0 cs

/-- An integer operand: decimal with an optional `-`, or `0x` hexadecimal (R86). -/
def integerOperand (cs : List Char) : Option Int :=
  match cs with
  | '0' :: 'x' :: ds => (numeral 16 ds).map Int.ofNat
  | '-' :: ds => (numeral 10 ds).map fun n => -(n : Int)
  | ds => (numeral 10 ds).map Int.ofNat

/-- A time operand: an integer operand that is not negative (R76). -/
def timeOperand (cs : List Char) : Option Nat :=
  match integerOperand cs with
  | some (.ofNat n) => some n
  | some (.negSucc _) => none
  | none => none

/-- A one-bit operand (R86). -/
def bitOperand (cs : List Char) : Option Bool :=
  if cs = "on".toList then some true
  else if cs = "off".toList then some false
  else none

/-- The operands of a line: the text after the mnemonic, cut at its commas. -/
def splitOperands (cs : List Char) : List (List Char) :=
  match trimBlanks cs with
  | [] => []
  | c :: rest => ((c :: rest).splitOn ',').map trimBlanks

/-- The operation a mnemonic of R86 or R87 names. -/
def mnemonicOp (m : List Char) : Option Op :=
  if m = "fb.clear".toList then some .fbClear
  else if m = "fb.set".toList then some .fbSet
  else if m = "fb.get".toList then some .fbGet
  else if m = "fb.bounds".toList then some .fbBounds
  else if m = "enc.init".toList then some .encInit
  else if m = "enc.update".toList then some .encUpdate
  else if m = "enc.displayall".toList then some .encUpdate
  else if m = "enc.draw".toList then some .encDrawImage
  else if m = "enc.poweroff".toList then some .encPowerOff
  else if m = "db.tick".toList then some .dbTick
  else if m = "db.start".toList then some .dbStart
  else if m = "db.stop".toList then some .dbStop
  else if m = "db.setpoll".toList then some .dbSetPoll
  else none

/-- The term of an operation with the operands of a line, as R86's syntax column lists them. -/
def termOf (o : Op) (args : List (List Char)) : Option Instr :=
  match o, args with
  | .fbClear, [b] => (bitOperand b).map Instr.fbClear
  | .fbSet, [x, y, b] => do return .fbSet (← integerOperand x) (← integerOperand y) (← bitOperand b)
  | .fbGet, [x, y] => do return .fbGet (← integerOperand x) (← integerOperand y)
  | .fbBounds, [] => some .fbBounds
  | .encInit, [] => some .encInit
  | .encUpdate, [] => some .encUpdate
  | .encDrawImage, [x0, y0, x1, y1, sx, sy] => do
    return .encDrawImage (← integerOperand x0) (← integerOperand y0) (← integerOperand x1)
      (← integerOperand y1) (← integerOperand sx) (← integerOperand sy)
  | .encPowerOff, [] => some .encPowerOff
  | .dbTick, [t] => (timeOperand t).map Instr.dbTick
  | .dbStart, [] => some .dbStart
  | .dbStop, [] => some .dbStop
  | .dbSetPoll, [t] => (timeOperand t).map Instr.dbSetPoll
  | _, _ => none

/-- The mnemonic of a line: its first token. -/
def mnemonicText (line : List Char) : List Char := (skipBlanks line).takeWhile fun c => !isBlank c

/-- What follows the mnemonic of a line. -/
def operandText (line : List Char) : List Char := (skipBlanks line).dropWhile fun c => !isBlank c

/-- The term of a line. An operand outside its field's range does not assemble (R86). -/
def assembleTerm (line : List Char) : Option Instr :=
  match mnemonicOp (mnemonicText line) with
  | none => none
  | some o =>
    match termOf o (splitOperands (operandText line)) with
    | none => none
    | some i => if i.fitsFields then some i else none

/-- The words of a line: one, or two for `ENC_DRAW_IMAGE` (R70, R86). -/
def assemble (line : List Char) : Option (List Word) :=
  (assembleTerm line).map fun i => if i.op.format.words = 2 then [encodeWord0 i, encodeWord1 i] else [encodeWord0 i]

end Sys2Proof.Machine
end

