-- ==== Sys2Proof/Safety.lean ====
section
/-! DEFINITION. The terms in which claims about the block are made: what a trace says about the output lines
and the bus (41_encoder.md R123, R134), the event grammar of a line (42_debounce.md R179), the invariants that
every step keeps, the legality of a request as 30_encoding.md R78 and R82 put it, the line of a term in
R86's syntax, and runs of several operations. -/

namespace Sys2Proof.Machine

/-! ### Reading an encoder trace -/

/-- A primitive that succeeded, as a trace event. -/
def EncEvent.succeeded (p : Prim) : EncEvent := { prim := p, result := .ok }

/-- The output lines after the events of a trace, from given levels (R25). -/
def outReplay (o : OutLines) (tr : List EncEvent) : OutLines := tr.foldl (fun o ev => outAfter o ev.prim ev.result) o

/-- The bus transfers of a trace in order, each with the level of `DC` and of `CS` at that moment (R123). -/
def busTransfers : OutLines → List EncEvent → List (OutLevel × OutLevel × List Byte)
  | _, [] => []
  | o, ev :: tr =>
    match ev.prim with
    | .busTx bytes => (o.dc, o.cs, bytes) :: busTransfers o tr
    | .lineWrite _ _ => busTransfers (outAfter o ev.prim ev.result) tr
    | .delay _ => busTransfers o tr

/-- A transfer inside a transaction: `CS` low, and one byte with `DC` low or `W` bytes with `DC` high (R59, R121,
R123). -/
def transferOk (width : Nat) : OutLevel × OutLevel × List Byte → Bool
  | (.low, .low, bytes) => bytes.length == 1
  | (.high, .low, bytes) => bytes.length == width
  | (_, _, _) => false

/-- The primitives of an initialization: the reset pulse, then four for each byte of `INIT_SEQ` (R124, R133). -/
def initSteps (c : Params) : List Prim :=
  [.lineWrite .rst .high, .delay c.rstD1, .lineWrite .rst .low, .delay c.rstD2,
   .lineWrite .rst .high, .delay c.rstD3] ++
  c.initSeq.flatMap fun b => [.lineWrite .dc .low, .lineWrite .cs .low, .busTx [b], .lineWrite .cs .high]

/-- The sixteen primitives of one page of an update, in the order of R137's trace indices. -/
def pageSteps (c : Params) (m : Memory) (p : Nat) : List Prim :=
  [.lineWrite .dc .low, .lineWrite .cs .low, .busTx [c.pageSelect p], .lineWrite .cs .high,
   .lineWrite .dc .low, .lineWrite .cs .low, .busTx [c.colLo], .lineWrite .cs .high,
   .lineWrite .dc .low, .lineWrite .cs .low, .busTx [c.colHi], .lineWrite .cs .high,
   .lineWrite .dc .high, .lineWrite .cs .low,
   .busTx ((List.range c.width).map fun j => ~~~(Memory.read m (p * c.width + j))), .lineWrite .cs .high]

/-- The primitives of pages `0 .. n - 1` of an update (R137). -/
def pagesSteps (c : Params) (m : Memory) (n : Nat) : List Prim := (List.range n).flatMap (pageSteps c m)

/-- The primitives of an encoder operation in order, for the framebuffer it sends (R133, R137, R145, R149); a
framebuffer operation has none (R100). -/
def operationSteps (c : Params) (m : Memory) : Instr → List Prim
  | .encInit => initSteps c
  | .encUpdate => pagesSteps c m c.pages
  | .encDrawImage _ _ _ _ _ _ => pagesSteps c m c.pages
  | .encPowerOff =>
    [.lineWrite .dc .low, .lineWrite .cs .low, .busTx [c.panelOff], .lineWrite .cs .high]
  | .fbClear _ => []
  | .fbSet _ _ _ => []
  | .fbGet _ _ => []
  | .fbBounds => []
  | .dbTick _ => []
  | .dbStart => []
  | .dbStop => []
  | .dbSetPoll _ => []

/-- What a response says of the events its operation left, of the primitives `ps`: all of them, each successful; or, with
`ERR_IO(e, k)`, those before index `k`, each successful, and then primitive `k`, not a delay, failed with `e` (R12, R120). -/
def eventsOf (ps : List Prim) (new : List EncEvent) : Reply → Prop
  | .errIo e k => ∃ p, ps[k]? = some p ∧ (∀ d, p ≠ .delay d) ∧
      new = (ps.take k).map .succeeded ++ [{ prim := p, result := .err e }]
  | .ok => new = ps.map .succeeded
  | .pixel _ => new = ps.map .succeeded
  | .bounds _ _ => new = ps.map .succeeded
  | .errIllegal _ => False

/-- How many primitives an encoder operation performs when it succeeds (R150). -/
def traceLength (c : Params) : Instr → Nat
  | .encInit => 6 + 4 * c.initSeq.length
  | .encUpdate => 16 * c.pages
  | .encDrawImage _ _ _ _ _ _ => 16 * c.pages
  | .encPowerOff => 4
  | .fbClear _ => 0
  | .fbSet _ _ _ => 0
  | .fbGet _ _ => 0
  | .fbBounds => 0
  | .dbTick _ => 0
  | .dbStart => 0
  | .dbStop => 0
  | .dbSetPoll _ => 0

/-- What a response says of the events `new` its operation left (R150): all succeeded and there are `n` of them, or
`k + 1` of them of which the last alone failed, with the error the response carries. -/
def eventsMatch (n : Nat) (new : List EncEvent) : Reply → Prop
  | .errIo e k => new.length = k + 1 ∧ (∃ p, new.getLast? = some { prim := p, result := .err e }) ∧
      ∀ ev ∈ new.dropLast, ev.result = .ok
  | .ok => new.length = n ∧ ∀ ev ∈ new, ev.result = .ok
  | .pixel _ => new.length = n ∧ ∀ ev ∈ new, ev.result = .ok
  | .bounds _ _ => new.length = n ∧ ∀ ev ∈ new, ev.result = .ok
  | .errIllegal _ => False

/-! ### Reading a debounce trace -/

/-- What one line's visit leaves in `TR_D`, case by case as R163's table and R165's pseudocode have it. -/
def visitEvents (c : Params) (poll now : Nat) (l : Line) (b : ButtonState) (lvl : Level) : List DbEvent :=
  let cur := mapLevel c l lvl
  let e : Int := now - startOf l b
  .readLevel l lvl ::
    if b.pressed = false ∧ cur = true then [.emit l .click now]
    else if b.pressed = true ∧ cur = true then
      if (c.hold : Int) ≤ e ∧ e < (c.hold : Int) + (poll : Int) then [.emit l .hold now] else []
    else if b.pressed = true ∧ cur = false then [.emit l .release now]
    else []

/-- The entry of one line after its visit (R163): `start` is written on a press edge only. -/
def visitEntry (c : Params) (now : Nat) (l : Line) (b : ButtonState) (lvl : Level) : ButtonState :=
  let cur := mapLevel c l lvl
  { pressed := cur, start := if b.pressed = false ∧ cur = true then some now else b.start }

/-- The events a trace delivers for one line, with their times (R176). -/
def lineEmits (l : Line) (tr : List DbEvent) : List (EventKind × Nat) :=
  tr.filterMap fun ev =>
    match ev with
    | .emit l' k t => if l' = l then some (k, t) else none
    | .readLevel _ _ => none

/-- The grammar of a line's events (R179): whether the line is inside a press after them, or `none` if they break
the grammar. -/
def grammarFrom : Option Bool → List (EventKind × Nat) → Option Bool
  | st, [] => st
  | none, _ :: _ => none
  | some false, (.click, _) :: es => grammarFrom (some true) es
  | some true, (.hold, _) :: es => grammarFrom (some true) es
  | some true, (.release, _) :: es => grammarFrom (some false) es
  | some true, (.click, _) :: _ => none
  | some false, (.hold, _) :: _ => none
  | some false, (.release, _) :: _ => none

/-- The time of the last click among a line's events, if there is one (R32). -/
def lastClick (es : List (EventKind × Nat)) : Option Nat :=
  (es.filterMap fun e => if e.1 = .click then some e.2 else none).getLast?

/-! ### Invariants -/

/-- The framebuffer is in canonical form and lists only bytes of its address space (R50, R51). -/
def FramebufferInv (s : State) : Prop := Memory.wf s.enc.fb = true ∧ Memory.within s.cfg.bytes s.enc.fb = true

/-- No operation is in progress: between steps both ports are free (R29, R37). -/
def PortsInv (s : State) : Prop := s.enc.busy = false ∧ s.db.lock = .free

/-- The output line registers hold what the trace says was driven, from `UNKNOWN` at reset (R25). -/
def OutInv (s : State) : Prop := s.enc.out = outReplay Encoder.fresh.out s.enc.trace

/-- Every bus transfer of the trace was inside a transaction of the right shape (R59, R123, R228). -/
def BusInv (s : State) : Prop := ∀ x ∈ busTransfers Encoder.fresh.out s.enc.trace, transferOk s.cfg.width x = true

/-- Every line's events keep the grammar, and `pressed` says where in it the line is (R179). -/
def GrammarInv (s : State) : Prop :=
  ∀ l, grammarFrom (some false) (lineEmits l s.db.trace) = some (s.db.bs.get l).pressed

/-- `start` is the time of the line's last press edge, `UNSET` if it had none (R32). -/
def StartInv (s : State) : Prop := ∀ l, (s.db.bs.get l).start = lastClick (lineEmits l s.db.trace)

/-- A line that is pressed has a start (R32), so a held tick never reads `UNSET`. -/
def PressedHasStart (s : State) : Prop := ∀ l, (s.db.bs.get l).pressed = true → (s.db.bs.get l).start.isSome = true

/-- The poll interval is positive (R33, R39). -/
def PollInv (s : State) : Prop := 0 < s.db.poll

/-! ### Legality of a request -/

/-- A row of the opcode map (R78) with the port that owns it (R72). -/
structure TableRow where
  op : Op
  port : Port
  pattern : Word
  mask : Word
  deriving DecidableEq, Repr

/-- The opcode map of R78, copied from its match and mask columns. -/
def opcodeMap : List TableRow :=
  [⟨.fbClear, .encoder, 0x0100000000000000#64, 0xFFFFFFFFFFFFFFFE#64⟩,
   ⟨.fbSet, .encoder, 0x0200000000000000#64, 0xFFFFFFFFFE000000#64⟩,
   ⟨.fbGet, .encoder, 0x0300000000000000#64, 0xFFFFFFFFFF000000#64⟩,
   ⟨.fbBounds, .encoder, 0x0400000000000000#64, 0xFFFFFFFFFFFFFFFF#64⟩,
   ⟨.encInit, .encoder, 0x1000000000000000#64, 0xFFFFFFFFFFFFFFFF#64⟩,
   ⟨.encUpdate, .encoder, 0x1100000000000000#64, 0xFFFFFFFFFFFFFFFF#64⟩,
   ⟨.encDrawImage, .encoder, 0x1200000000000000#64, 0xFFFF000000000000#64⟩,
   ⟨.encPowerOff, .encoder, 0x1300000000000000#64, 0xFFFFFFFFFFFFFFFF#64⟩] ++
  [⟨.dbTick, .debounce, 0x2000000000000000#64, 0xFFFF000000000000#64⟩,
   ⟨.dbStart, .debounce, 0x2100000000000000#64, 0xFFFFFFFFFFFFFFFF#64⟩,
   ⟨.dbStop, .debounce, 0x2200000000000000#64, 0xFFFFFFFFFFFFFFFF#64⟩,
   ⟨.dbSetPoll, .debounce, 0x2300000000000000#64, 0xFFFF000000000000#64⟩]

/-- A word pair presented on a port matches a row and escapes every refusal of R82. -/
def matchesRow (port : Port) (w0 w1 : Word) (row : TableRow) : Prop :=
  row.port = port ∧ w0 &&& row.mask = row.pattern ∧
    (row.op = .encDrawImage → w1 &&& 0xFFFFFFFFFF000000#64 = 0xFF00000000000000#64) ∧
    (row.op = .dbSetPoll → w0 &&& 0x0000FFFFFFFFFFFF#64 ≠ 0#64)

/-- The request is legal (R82). -/
def legalOn (port : Port) (w0 w1 : Word) : Prop := ∃ row ∈ opcodeMap, matchesRow port w0 w1 row

/-! ### Source lines -/

/-- An integer operand written in decimal (R86). -/
def decimalOperand : Int → List Char
  | .ofNat n => Nat.toDigits 10 n
  | .negSucc n => '-' :: Nat.toDigits 10 (n + 1)

/-- A one-bit operand written out (R86). -/
def onOff (on : Bool) : List Char := if on then "on".toList else "off".toList

/-- The mnemonic in the syntax column of R86. -/
def sourceMnemonic : Op → List Char
  | .fbClear => "fb.clear".toList
  | .fbSet => "fb.set".toList
  | .fbGet => "fb.get".toList
  | .fbBounds => "fb.bounds".toList
  | .encInit => "enc.init".toList
  | .encUpdate => "enc.update".toList
  | .encDrawImage => "enc.draw".toList
  | .encPowerOff => "enc.poweroff".toList
  | .dbTick => "db.tick".toList
  | .dbStart => "db.start".toList
  | .dbStop => "db.stop".toList
  | .dbSetPoll => "db.setpoll".toList

/-- The operands in the syntax column of R86. -/
def sourceOperands : Instr → List (List Char)
  | .fbClear on => [onOff on]
  | .fbSet x y on => [decimalOperand x, decimalOperand y, onOff on]
  | .fbGet x y => [decimalOperand x, decimalOperand y]
  | .fbBounds => []
  | .encInit => []
  | .encUpdate => []
  | .encDrawImage x0 y0 x1 y1 sx sy =>
    [decimalOperand x0, decimalOperand y0, decimalOperand x1, decimalOperand y1, decimalOperand sx, decimalOperand sy]
  | .encPowerOff => []
  | .dbTick now => [Nat.toDigits 10 now]
  | .dbStart => []
  | .dbStop => []
  | .dbSetPoll p => [Nat.toDigits 10 p]

/-- Operands after a mnemonic: a blank before each, a comma between two. -/
def joinOperands : List (List Char) → List Char
  | [] => []
  | [a] => ' ' :: a
  | a :: b :: rest => (' ' :: a) ++ ',' :: joinOperands (b :: rest)

/-- The line of an operation term in the syntax of R86, with its integers in decimal. -/
def sourceLine (i : Instr) : List Char := sourceMnemonic i.op ++ joinOperands (sourceOperands i)

/-! ### Runs of several operations -/

/-- Operations performed one after another, if none stops. -/
def execAll : List Instr → State → Option State
  | [], s => some s
  | i :: is, s =>
    match exec i s with
    | .next t => execAll is t
    | .fault _ => none
    | .refused _ => none

/-- The instruction writes pixel `(x, y)`: a clear, a set of that pixel, or a draw whose overlap contains it (R23). -/
def writesPixel (c : Params) (x y : Int) : Instr → Bool
  | .fbClear _ => true
  | .fbSet x' y' _ => decide (x' = x) && decide (y' = y)
  | .encDrawImage x0 y0 x1 y1 _ _ => inOverlap c x0 y0 x1 y1 x y
  | .fbGet _ _ => false
  | .fbBounds => false
  | .encInit => false
  | .encUpdate => false
  | .encPowerOff => false
  | .dbTick _ => false
  | .dbStart => false
  | .dbStop => false
  | .dbSetPoll _ => false

/-- The ticks `t0, t0 + p, …, t0 + m * p` (the premise `IT(t0, P)` of R175). -/
def idealTicks (t0 p m : Nat) : List Instr := (List.range (m + 1)).map fun k => .dbTick (t0 + k * p)

end Sys2Proof.Machine
end

