-- ==== Sys2Proof/Certificates/Slice0/Obligations.lean ====
section
/-! DEFINITION. The statements made about the model, from the numbered rules of spec/. Each docstring names the rules
it formalises; OBLIGATIONS.json lists them. -/

open Sys2Proof Sys2Proof.Machine

/-! ### The encoding (30_encoding.md) -/

/-- Words of 95_test_vectors.md decode to the terms listed beside them, and its illegal words do not (R73 to R76, R78,
R81, R82). -/
def Obligations.SpecWordsDecode : Prop :=
  decodeOn .encoder 0x0100000000000001#64 0#64 = .ok (.fbClear true) ∧
  decodeOn .encoder 0x0200000001FFF005#64 0#64 = .ok (.fbSet (-1) 5 true) ∧
  decodeOn .encoder 0x030000000007F03F#64 0#64 = .ok (.fbGet 127 63) ∧
  decodeOn .encoder 0x120007803C0C8064#64 0xFF00000000000000#64 = .ok (.encDrawImage 120 60 200 100 0 0) ∧
  decodeOn .debounce 0x2000FFFFFFFFFFFF#64 0#64 = .ok (.dbTick 281474976710655) ∧
  decodeOn .debounce 0x2300000000000064#64 0#64 = .ok (.dbSetPoll 100) ∧
  decodeOn .encoder 0x0200000002000000#64 0#64 = .error (.reservedBits 0x02#8) ∧
  decodeOn .encoder 0x1200000000002001#64 0xFE00000000005005#64 = .error .badSecondWord ∧
  decodeOn .debounce 0x2300000000000000#64 0#64 = .error .zeroInterval ∧
  decodeOn .debounce 0x1100000000000000#64 0#64 = .error (.wrongPort 0x11#8)

/-- Decoding the words of a well-formed instruction, on the port that owns its opcode, gives it back with every operand
(R71 to R76, R78). -/
def Obligations.EncodeThenDecode : Prop :=
  ∀ i : Instr, i.wellFormed = true → decodeOn i.op.port (encode i).1 (encode i).2 = .ok i

/-- A word that decodes is the word of the instruction it decodes to, which is well formed; so each instruction has one
word (one pair for `ENC_DRAW_IMAGE`), and no bit of a legal word is lost (R81, R84, R85). -/
def Obligations.DecodeThenEncode : Prop :=
  ∀ (port : Port) (w0 w1 : Word) (i : Instr), decodeOn port w0 w1 = .ok i →
    i.wellFormed = true ∧ i.op.port = port ∧ encodeWord0 i = w0 ∧ (i.op = .encDrawImage → encodeWord1 i = w1)

/-- The requests that decode are the ones that match a row of the opcode map under its mask, on the port of that row,
with a matching word 1 and a positive interval where the row needs one, and they decode to that row's operation
(R78, R81, R82). -/
def Obligations.LegalRequestsMatchTheOpcodeMap : Prop :=
  ∀ (port : Port) (w0 w1 : Word),
    ((∃ i, decodeOn port w0 w1 = .ok i) ↔ legalOn port w0 w1) ∧
    ∀ i, decodeOn port w0 w1 = .ok i → ∃ row ∈ opcodeMap, row.op = i.op ∧ matchesRow port w0 w1 row

/-- A request that matches no row is answered with `ERR_ILLEGAL` and its opcode byte, and nothing else happens: no
primitive, no state, `ENC.busy` as it was (R80, R82). That the refusal comes at once also while the port is taken is
DEDUCED (log entry 7), that the first of the list is dealt with is the model's choice (log entry 6), and where the
response goes is DEDUCED (log entry 11) and left open here. -/
def Obligations.IllegalRequestIsRefused : Prop :=
  ∀ (s : State) (r : Request) (rest : List Request),
    s.pending = r :: rest → ¬ legalOn r.port r.word0 r.word1 →
    ∃ t, step s = .next t ∧ t.cfg = s.cfg ∧ t.pending = rest ∧ t.image = s.image ∧ t.waits = s.waits ∧
      (r.port = .encoder → t.db = s.db ∧
        t.enc = { s.enc with responses := s.enc.responses ++ [.errIllegal (opcodeOf r.word0)] }) ∧
      (r.port = .debounce → t.enc = s.enc ∧ ∃ q,
        t.db = { s.db with responses := s.db.responses ++ [{ dest := q, reply := .errIllegal (opcodeOf r.word0) }] }) ∧
      (Reply.errIllegal (opcodeOf r.word0)).word.toNat = 2 * 2 ^ 56 + (opcodeOf r.word0).toNat

/-- The status and payload fields of every response word (R79, R80); the error value beside the word is a number in
the model (log entry 13). -/
def Obligations.ResponseWordLayout : Prop :=
  Reply.ok.word = 0#64 ∧
  (∀ on : Bool, (Reply.pixel on).word = if on then 1#64 else 0#64) ∧
  (∀ w h : Nat, w < 2 ^ 24 → h < 2 ^ 24 → (Reply.bounds w h).word.toNat = w * 2 ^ 24 + h) ∧
  (∀ e k : Nat, k < 2 ^ 48 → (Reply.errIo e k).word.toNat = 2 ^ 56 + k ∧ (Reply.errIo e k).error = some e) ∧
  (∀ op : Byte, (Reply.errIllegal op).word.toNat = 2 ^ 57 + op.toNat)

/-- `enc.displayall` is another spelling of `enc.update` (R87). -/
def Obligations.DisplayAllAssemblesToUpdate : Prop :=
  assemble "enc.displayall".toList = assemble "enc.update".toList ∧
  assembleTerm "enc.displayall".toList = some .encUpdate

/-- A line whose mnemonic and operands are read as a term assembles to that term if every operand is in its field's range,
and not at all otherwise; a line that is read as no term does not assemble; what assembles fits its fields. And the terms
are read as R86's syntax column has them: the line of any term, its integers in decimal, assembles to that term if it fits
and not at all otherwise, and a hexadecimal operand is its number (R75, R76, R86). How blanks are skipped is the model's
choice (log entry 15). -/
def Obligations.AssembledOperandsFit : Prop :=
  (∀ (line : List Char) (o : Op) (i : Instr),
    mnemonicOp (mnemonicText line) = some o → termOf o (splitOperands (operandText line)) = some i →
    assembleTerm line = if i.fitsFields then some i else none) ∧
  (∀ line : List Char,
    (∀ o, mnemonicOp (mnemonicText line) = some o → termOf o (splitOperands (operandText line)) = none) →
    assembleTerm line = none) ∧
  (∀ (line : List Char) (i : Instr), assembleTerm line = some i → i.fitsFields = true) ∧
  (∀ i : Instr, assembleTerm (sourceLine i) = if i.fitsFields then some i else none) ∧
  (∀ n : Nat, integerOperand ('0' :: 'x' :: Nat.toDigits 16 n) = some (n : Int))

/-! ### The step -/

/-- When the first request presented decodes and its port is free, the step is that instruction's meaning on the state
in which the request has left the port, its source image is at hand and its sub-block is taken. The rules give that
one request is performed at a time, with `ENC.busy` true or the lock held (R21, R29, R37, R57); the rest is the
model's: one step is the whole operation (log entry 1, for the encoder the spec's inference in R29), the first request
of the list is taken (log entry 6), the image is copied at acceptance (log entry 5), and `ENC.k` is set to 0 at
acceptance (log entry 8). -/
def Obligations.StepPerformsTheDecodedRequest : Prop :=
  ∀ (s : State) (r : Request) (rest : List Request) (i : Instr),
    s.pending = r :: rest → decodeOn r.port r.word0 r.word1 = .ok i → portFree s r.port = true →
    step s = exec i (accept r rest s) ∧
    (r.port = .encoder → accept r rest s =
      { s with pending := rest, image := r.image, enc := { s.enc with busy := true, k := 0 } }) ∧
    (r.port = .debounce → accept r rest s =
      { s with pending := rest, image := r.image, db := { s.db with lock := .held } })

/-- A word presented first on the port that owns its opcode is what the next step performs (R72, R84). The numbering
of its bits is the host's (log entry 17), and that `withFetchWord` stands for a presenter is the model's choice (log
entry 6). -/
def Obligations.PresentedWordIsPerformed : Prop :=
  ∀ (s : State) (nbits w : Nat) (i : Instr), decodeTableWord nbits w = some i →
    step (s.withFetchWord nbits w) =
      exec i (accept (tableRequest nbits w) s.pending (s.withFetchWord nbits w))

/-- Requests presented while their ports are taken wait: they stay presented in their order, and neither sub-block
changes (R29, R37, R57). That they stand in one list and that more may arrive behind them is the model's choice (log
entry 6). -/
def Obligations.RequestWaitsForItsPort : Prop :=
  ∀ s : State,
    (∀ r ∈ s.pending, ∃ i, decodeOn r.port r.word0 r.word1 = .ok i ∧ portFree s r.port = false) →
    ∃ t more, step s = .next t ∧ t.pending = s.pending ++ more ∧ t.enc = s.enc ∧ t.db = s.db ∧ t.cfg = s.cfg

/-- Every step answers a next state: no behaviour of the block is a fault or a stuck state, and every error is a
response (R190, R197). -/
def Obligations.NoStepStops : Prop := ∀ s : State, ∃ t, step s = .next t

/-- A request that is dealt with gets exactly one response, on its own port, and leaves the others presented (R80).
Which request is dealt with is the model's choice (log entries 6 and 7). -/
def Obligations.OneResponsePerRequest : Prop :=
  ∀ (s t : State) (r : Request) (rest : List Request),
    takeReady s s.pending = some (r, rest) → step s = .next t →
    t.pending = rest ∧
    (r.port = .encoder → t.enc.responses.length = s.enc.responses.length + 1 ∧
      t.db.responses = s.db.responses) ∧
    (r.port = .debounce → t.db.responses.length = s.db.responses.length + 1 ∧
      t.enc.responses = s.enc.responses)

/-- No step writes a configured constant or a read-only register (R27, R28). -/
def Obligations.ConfigurationIsReadOnly : Prop := ∀ s t : State, step s = .next t → t.cfg = s.cfg

/-- The traces only grow (R41). -/
def Obligations.TracesOnlyGrow : Prop :=
  ∀ s t : State, step s = .next t → s.enc.trace <+: t.enc.trace ∧ s.db.trace <+: t.db.trace

/-- The sub-blocks share no state: an operation leaves the other sub-block alone, and what it does to its own depends on
its own (and the configuration and its request) only (R3, R61). -/
def Obligations.SubBlocksShareNoState : Prop :=
  (∀ (i : Instr) (s s' : State), i.op.port = .encoder → s.cfg = s'.cfg → s.enc = s'.enc → s.image = s'.image →
    ∃ t t', exec i s = .next t ∧ exec i s' = .next t' ∧ t.enc = t'.enc ∧ t.db = s.db ∧ t'.db = s'.db) ∧
  (∀ (i : Instr) (s s' : State), i.op.port = .debounce → s.cfg = s'.cfg → s.db = s'.db →
    ∃ t t', exec i s = .next t ∧ exec i s' = .next t' ∧ t.db = t'.db ∧ t.enc = s.enc ∧ t'.enc = s'.enc)

/-- The frame of every operation: an encoder operation changes the encoder sub-block only; a debounce operation
changes the debounce sub-block only, and of it the file and the trace only by `DB_TICK`, the running flag only by
`DB_START` and `DB_STOP`, the interval only by `DB_SET_POLL`; each gives one response and leaves its port free (R3,
R29, R30, R33, R36, R37, R38, R80). That what is left of the listed answers and levels is an end of what was listed
speaks of the model's own lists (log entry 4). -/
def Obligations.OperationsKeepToTheirState : Prop :=
  (∀ (i : Instr) (s : State), i.op.port = .encoder →
    ∃ t r, exec i s = .next t ∧ t = { s with enc := t.enc } ∧ t.enc.busy = false ∧
      t.enc.responses = s.enc.responses ++ [r] ∧ t.enc.answers <:+ s.enc.answers) ∧
  (∀ (i : Instr) (s : State), i.op.port = .debounce →
    ∃ t r, exec i s = .next t ∧ t = { s with db := t.db } ∧ t.db.lock = .free ∧
      t.db.responses = s.db.responses ++ [r] ∧ t.db.levels <:+ s.db.levels ∧
      (i.op ≠ .dbTick → t.db.bs = s.db.bs ∧ t.db.trace = s.db.trace ∧ t.db.levels = s.db.levels ∧
        t.db.draws = s.db.draws) ∧
      (i.op ≠ .dbStart → i.op ≠ .dbStop → t.db.running = s.db.running) ∧
      (i.op ≠ .dbSetPoll → t.db.poll = s.db.poll))

/-! ### Reset (70_reset_and_hazards.md) -/

/-- What construction with a valid configuration leaves, item by item of R221's table (that no line is pressed and
no start set is the spec's inference in R31); an invalid configuration leaves no block (R9, R220). -/
def Obligations.ResetLeavesTheTableOfR221 : Prop :=
  (∀ c : Params, c.Valid → ∃ s, State.construct c = some s ∧
    (∀ i, Memory.read s.enc.fb i = 0x00#8) ∧
    s.enc.out.dc = .unknown ∧ s.enc.out.rst = .unknown ∧ s.enc.out.cs = .unknown ∧
    s.enc.busy = false ∧ s.enc.k = 0 ∧ s.cfg = c ∧
    (∀ l, (s.db.bs.get l).pressed = false ∧ (s.db.bs.get l).start = none) ∧
    s.db.poll = c.poll0 ∧ s.db.running = false ∧ s.db.lock = .free ∧
    s.enc.trace = [] ∧ s.db.trace = []) ∧
  (∀ c : Params, ¬ c.Valid → State.construct c = none)

/-- The machine's reset state is one that construction gives: its configuration, free as it is, is valid (R9); and the
durations of any valid configuration are real numbers, `RST_D1`, `RST_D2` and `TIME_UNIT` above zero, `RST_D3` zero or
above (R7, R8, R9, R227). The free configuration and the form of a duration are the model's (log entries 2 and 3). -/
def Obligations.ResetConfigurationIsValid : Prop :=
  (Config.params.Valid ∧ State.construct Config.params = some State.reset) ∧
  (∀ c : Params, c.Valid → ∃ d1 d2 d3 u : ℝ,
    c.rstD1.IsValue d1 ∧ c.rstD2.IsValue d2 ∧ c.rstD3.IsValue d3 ∧ c.timeUnit.IsValue u ∧
    0 < d1 ∧ 0 < d2 ∧ 0 ≤ d3 ∧ 0 < u)

/-- The invariants hold at reset (R24, R25, R29, R33, R37, R41; for the ButtonState file the spec's inference in R31). -/
def Obligations.ResetMeetsTheInvariants : Prop :=
  FramebufferInv State.reset ∧ PortsInv State.reset ∧ OutInv State.reset ∧ BusInv State.reset ∧
  GrammarInv State.reset ∧ StartInv State.reset ∧ PollInv State.reset

/-! ### The framebuffer (40_framebuffer.md) -/

/-- The pixel map: byte `(y div 8) * W + x`, bit `y mod 8`, inside the array; two pixels never share a bit; every bit of
every byte is a pixel (R22, R53, R100). -/
def Obligations.EveryPixelIsOneBitOfOneByte : Prop :=
  ∀ c : Params, c.ValidGeometry →
    (∀ x y : Int, inB c x y = true →
      (pixelIndex c x y : Int) = (y / 8) * c.width + x ∧ (pixelBit y : Int) = y % 8 ∧
      pixelIndex c x y < c.width * (c.height / 8)) ∧
    (∀ x y x' y' : Int, inB c x y = true → inB c x' y' = true →
      pixelIndex c x y = pixelIndex c x' y' → pixelBit y = pixelBit y' → x = x' ∧ y = y') ∧
    (∀ i b : Nat, i < c.width * (c.height / 8) → b < 8 →
      ∃ x y : Int, inB c x y = true ∧ pixelIndex c x y = i ∧ pixelBit y = b)

/-- `FB_CLEAR` sets every byte of the framebuffer, so every pixel, and changes nothing else but the response (R101). -/
def Obligations.FbClearSetsEveryByte : Prop :=
  ∀ (s : State) (on : Bool), ∃ t, exec (.fbClear on) s = .next t ∧
    (∀ i, i < s.cfg.bytes → Memory.read t.enc.fb i = if on then 0xFF#8 else 0x00#8) ∧
    (∀ i, s.cfg.bytes ≤ i → Memory.read t.enc.fb i = Memory.read s.enc.fb i) ∧
    (s.cfg.ValidGeometry → ∀ x y : Int, inB s.cfg x y = true → getPixel s.cfg t.enc.fb x y = on) ∧
    t = { s with enc := { s.enc with
      fb := t.enc.fb, busy := false, responses := s.enc.responses ++ [.ok] } }

/-- `FB_SET` changes at most one bit: in bounds, bit `bit(y)` of byte `idx(x, y)` takes the value `on`; out of bounds,
nothing changes; every other byte reads as before; nothing else changes but the response (the spec's inference R105,
from R102). The canonical form of the hypothesis is the model's own (log entry 12). -/
def Obligations.FbSetChangesAtMostOneBit : Prop :=
  ∀ (s : State) (x y : Int) (on : Bool), Memory.wf s.enc.fb = true →
    ∃ t, exec (.fbSet x y on) s = .next t ∧
      (inB s.cfg x y = true → ∀ j, j < 8 →
        (Memory.read t.enc.fb (pixelIndex s.cfg x y)).getLsbD j =
          if j = pixelBit y then on else (Memory.read s.enc.fb (pixelIndex s.cfg x y)).getLsbD j) ∧
      (inB s.cfg x y = true → ∀ i, i ≠ pixelIndex s.cfg x y →
        Memory.read t.enc.fb i = Memory.read s.enc.fb i) ∧
      (inB s.cfg x y = false → t.enc.fb = s.enc.fb) ∧
      t = { s with enc := { s.enc with
        fb := t.enc.fb, busy := false, responses := s.enc.responses ++ [.ok] } }

/-- `FB_GET` answers the addressed bit, and 0 out of bounds; no state is written but the response (R103). -/
def Obligations.FbGetAnswersThePixel : Prop :=
  ∀ (s : State) (x y : Int), ∃ b, exec (.fbGet x y) s = .next
      { s with enc := { s.enc with busy := false, responses := s.enc.responses ++ [.pixel b] } } ∧
    (0 ≤ x ∧ x < s.cfg.width ∧ 0 ≤ y ∧ y < s.cfg.height →
      b = (Memory.read s.enc.fb ((y.toNat / 8) * s.cfg.width + x.toNat)).getLsbD (y.toNat % 8)) ∧
    (¬(0 ≤ x ∧ x < s.cfg.width ∧ 0 ≤ y ∧ y < s.cfg.height) → b = false)

/-- `FB_BOUNDS` answers `(CFG.W, CFG.H)`; no state is written but the response (R104). -/
def Obligations.FbBoundsAnswersTheGeometry : Prop :=
  ∀ s : State, exec .fbBounds s = .next
    { s with enc := { s.enc with
      busy := false, responses := s.enc.responses ++ [.bounds s.cfg.width s.cfg.height] } }

/-- After `FB_SET(x, y, on)` in bounds, or `FB_CLEAR(on)`, `FB_GET(x, y)` returns `on` as long as no operation in
between writes that pixel (the spec's inference R106, from R101 to R103). The canonical form in the hypothesis is the
model's own (log entry 12). -/
def Obligations.PixelKeepsItsValueUntilWritten : Prop :=
  ∀ (s : State) (x y : Int) (on : Bool) (first : Instr) (between : List Instr),
    FramebufferInv s → s.cfg.ValidGeometry → inB s.cfg x y = true →
    (first = .fbSet x y on ∨ first = .fbClear on) →
    (∀ i ∈ between, writesPixel s.cfg x y i = false) →
    ∃ t, execAll (first :: between ++ [.fbGet x y]) s = some t ∧
      t.enc.responses.getLast? = some (.pixel on)

/-- Setting then unsetting a pixel leaves it off, and restores its byte exactly when it was off before (the spec's
inference R107, from R102). The canonical form of the hypothesis is the model's own (log entry 12). -/
def Obligations.SetThenUnsetRestoresOnlyOffPixels : Prop :=
  ∀ (s : State) (x y : Int), Memory.wf s.enc.fb = true → inB s.cfg x y = true →
    ∃ t, execAll [.fbSet x y true, .fbSet x y false] s = some t ∧
      getPixel s.cfg t.enc.fb x y = false ∧
      (Memory.read t.enc.fb (pixelIndex s.cfg x y) = Memory.read s.enc.fb (pixelIndex s.cfg x y) ↔
        getPixel s.cfg s.enc.fb x y = false)

/-- A repeated `FB_SET` is one; two of different in-bounds pixels commute; of two of the same pixel the later stays
(the spec's inference R108, from R102). The canonical form of the hypothesis is the model's own (log entry 12). -/
def Obligations.PixelWritesRepeatAndCommute : Prop :=
  ∀ (s : State) (x y x' y' : Int) (on on' : Bool), Memory.wf s.enc.fb = true →
    (∃ t u, execAll [.fbSet x y on, .fbSet x y on] s = some t ∧ execAll [.fbSet x y on] s = some u ∧
      t.enc.fb = u.enc.fb) ∧
    (inB s.cfg x y = true → inB s.cfg x' y' = true → ¬(x = x' ∧ y = y') →
      ∃ t u, execAll [.fbSet x y on, .fbSet x' y' on'] s = some t ∧
        execAll [.fbSet x' y' on', .fbSet x y on] s = some u ∧ t.enc.fb = u.enc.fb) ∧
    (∃ t u, execAll [.fbSet x y on, .fbSet x y on'] s = some t ∧ execAll [.fbSet x y on'] s = some u ∧
      t.enc.fb = u.enc.fb)

/-- Only `FB_CLEAR`, `FB_SET` and `ENC_DRAW_IMAGE` write the framebuffer (R23). -/
def Obligations.OnlyThreeOperationsWriteTheFramebuffer : Prop :=
  ∀ (i : Instr) (s t : State), exec i s = .next t →
    i.op ≠ .fbClear → i.op ≠ .fbSet → i.op ≠ .encDrawImage → t.enc.fb = s.enc.fb

/-- Every step keeps the framebuffer's canonical form, which is the model's own (log entry 12), and its address space (R22,
R50). -/
def Obligations.FramebufferStaysCanonical : Prop :=
  ∀ s t : State, s.cfg.ValidGeometry → FramebufferInv s → step s = .next t → FramebufferInv t

/-! ### The display protocol (41_encoder.md) -/

/-- `ENC_INIT` with every primitive answered `ok`: the reset pulse, then each byte of `INIT_SEQ` in a command
transaction of its own, in order; the lines it leaves; nothing else changes (R25, R124, R126, R133). That `ENC.k`
stays at the trace length after the response is DEDUCED (log entry 8); the listed answers are the model's own field
(log entry 4). -/
def Obligations.EncInitPerformsPulseAndSequence : Prop :=
  ∀ (s : State) (rest : List IoResult), s.cfg.ValidInit →
    s.enc.answers = List.replicate (3 + 4 * s.cfg.initSeq.length) .ok ++ rest →
    exec .encInit s = .next { s with enc := { s.enc with
      trace := s.enc.trace ++ (initSteps s.cfg).map .succeeded
      out := { dc := .low, rst := .high, cs := .high }
      busy := false
      k := 6 + 4 * s.cfg.initSeq.length
      responses := s.enc.responses ++ [.ok]
      answers := rest } }

/-- Whatever the environment answered, if `ENC_INIT` succeeded its bus transfers are exactly the bytes of `INIT_SEQ` in
order, one a transfer, each with `DC` low (the spec's inference R134, from R121 and R133). -/
def Obligations.EncInitEmitsInitSeqExactly : Prop :=
  ∀ s t : State, exec .encInit s = .next t → t.enc.responses = s.enc.responses ++ [.ok] →
    ∃ new, t.enc.trace = s.enc.trace ++ new ∧
      busTransfers s.enc.out new = s.cfg.initSeq.map fun b => (.low, .low, [b])

/-- `ENC_UPDATE` with every primitive answered `ok`: page by page the three header commands and the complemented bytes
of the page, at the trace indices of R137; nothing else changes (R25, R136, R137, R139). That `ENC.k` stays at the
trace length after the response is DEDUCED (log entry 8); the listed answers are the model's own field (log entry 4);
the clause for no page speaks only of configurations that R9 rules out (log entry 14). -/
def Obligations.EncUpdateSendsEveryPage : Prop :=
  ∀ (s : State) (rest : List IoResult),
    s.enc.answers = List.replicate (16 * s.cfg.pages) .ok ++ rest →
    ∃ t, exec .encUpdate s = .next t ∧
      t = { s with enc := { s.enc with
        trace := s.enc.trace ++ (pagesSteps s.cfg s.enc.fb s.cfg.pages).map .succeeded
        out := t.enc.out
        busy := false
        k := 16 * s.cfg.pages
        responses := s.enc.responses ++ [.ok]
        answers := rest } } ∧
      (0 < s.cfg.pages → t.enc.out = { s.enc.out with dc := .high, cs := .high }) ∧
      (s.cfg.pages = 0 → t.enc.out = s.enc.out) ∧
      (∀ p, p < s.cfg.pages →
        (((t.enc.trace.drop s.enc.trace.length).drop (16 * p)).take 16) =
          (pageSteps s.cfg s.enc.fb p).map .succeeded)

/-- An update that ends in `IoError(e, k)`, whatever the environment answered: with `p = k div 16`, pages `0 .. p-1` were
sent in full; of page `p` the primitives before step `k mod 16` were performed; the failing one is the last event, so no
later page was begun; and `FB` is unchanged (the spec's inference R138, from R120 and R137). -/
def Obligations.EncUpdateStopsAtTheFirstError : Prop :=
  ∀ (s t : State) (e k : Nat),
    exec .encUpdate s = .next t → t.enc.responses = s.enc.responses ++ [.errIo e k] →
    ∃ p, (pageSteps s.cfg s.enc.fb (k / 16))[k % 16]? = some p ∧ k / 16 < s.cfg.pages ∧
      t.enc.trace = s.enc.trace ++ ((pagesSteps s.cfg s.enc.fb (k / 16)).map .succeeded ++
        ((pageSteps s.cfg s.enc.fb (k / 16)).take (k % 16)).map .succeeded ++ [{ prim := p, result := .err e }]) ∧
      t.enc.fb = s.enc.fb

/-- Two updates of one framebuffer, given the same answers, leave the same events (the spec's inference R140, from
R137). The list of answers and the counter of draws are the model's own (log entry 4). -/
def Obligations.RepeatedUpdateLeavesTheSameEvents : Prop :=
  ∀ (s s' : State), s.cfg = s'.cfg → s.enc.fb = s'.enc.fb →
    s.enc.answers = s'.enc.answers → s.enc.draws = s'.enc.draws →
    ∃ t t' new, exec .encUpdate s = .next t ∧ exec .encUpdate s' = .next t' ∧
      t.enc.trace = s.enc.trace ++ new ∧ t'.enc.trace = s'.enc.trace ++ new ∧
      t.enc.fb = s.enc.fb ∧ t'.enc.fb = s'.enc.fb

/-- The threshold: the truncated mean is below `2^(N-1)` exactly when the sum is below three times it, and every
channel the block reads lies in `0 .. 2^N - 1` (R141, R143). How the model keeps the channels in range is its own
choice (log entry 5). -/
def Obligations.ThresholdIsTheSumTest : Prop :=
  (∀ (c : Params) (p : Rgb),
    (thresholdOn c p = true ↔ (p.r + p.g + p.b) / 3 < 2 ^ (c.channelBits - 1)) ∧
    (thresholdOn c p = true ↔ p.r + p.g + p.b < 3 * 2 ^ (c.channelBits - 1))) ∧
  (∀ (c : Params) (img : SourceImage) (u v : Int),
    (sourceRead c img u v).r < 2 ^ c.channelBits ∧ (sourceRead c img u v).g < 2 ^ c.channelBits ∧
    (sourceRead c img u v).b < 2 ^ c.channelBits)

/-- `ENC_DRAW_IMAGE` gives every pixel of the overlap the threshold of its source point, leaves every other pixel and
every byte without a drawn pixel as it was, and then does what `ENC_UPDATE` does with that framebuffer, which stays
whatever the update's outcome (R144, R145). The form of the source image and the canonical form of the hypothesis are
the model's own (log entries 5 and 12). -/
def Obligations.DrawImageWritesTheOverlapThenUpdates : Prop :=
  ∀ (s : State) (x0 y0 x1 y1 sx sy : Int), Memory.wf s.enc.fb = true →
    ∃ m t, exec (.encDrawImage x0 y0 x1 y1 sx sy) s = .next t ∧
      exec .encUpdate { s with enc := { s.enc with fb := m } } = .next t ∧
      t.enc.fb = m ∧ Memory.wf m = true ∧
      (∀ x y : Int, inB s.cfg x y = true →
        getPixel s.cfg m x y =
          if x0 ≤ x ∧ x < x1 ∧ y0 ≤ y ∧ y < y1 then
            thresholdOn s.cfg (sourceRead s.cfg s.image (sx + (x - x0)) (sy + (y - y0)))
          else getPixel s.cfg s.enc.fb x y) ∧
      (∀ i, (∀ x y : Int, inB s.cfg x y = true → x0 ≤ x ∧ x < x1 ∧ y0 ≤ y ∧ y < y1 →
          pixelIndex s.cfg x y ≠ i) →
        Memory.read m i = Memory.read s.enc.fb i)

/-- `ENC_POWER_OFF` with every primitive answered `ok`: one command transaction with `PANEL_OFF`; `FB` is untouched
(R25, R149). That `ENC.k` is 4 after the response is DEDUCED (log entry 8); the listed answers are the model's own
field (log entry 4). -/
def Obligations.PowerOffSendsOneCommand : Prop :=
  ∀ (s : State) (rest : List IoResult), s.enc.answers = .ok :: .ok :: .ok :: .ok :: rest →
    exec .encPowerOff s = .next { s with enc := { s.enc with
      trace := s.enc.trace ++
        ([.lineWrite .dc .low, .lineWrite .cs .low, .busTx [s.cfg.panelOff], .lineWrite .cs .high] : List Prim).map
          .succeeded
      out := { s.enc.out with dc := .low, cs := .high }
      busy := false
      k := 4
      responses := s.enc.responses ++ [.ok]
      answers := rest } }

/-- Every encoder operation answers a next state, and its events are its primitives in order (R133, R137, R145, R149):
all of them, or those up to the first that fails, whose error and index the response carries; a delay never fails
(R12, R120, R191, R195, R197). -/
def Obligations.OperationsPerformTheirPrimitives : Prop :=
  ∀ (i : Instr) (s : State), i.op.port = .encoder →
    ∃ t new r, exec i s = .next t ∧ t.enc.trace = s.enc.trace ++ new ∧
      t.enc.responses = s.enc.responses ++ [r] ∧ eventsOf (operationSteps s.cfg t.enc.fb i) new r

/-- After an I/O error a line whose write failed is `UNKNOWN`, a failed bus transfer leaves `CS` low, and the encoder is
free again (R25, R192). -/
def Obligations.FailedWriteLeavesTheLineUnknown : Prop :=
  ∀ (i : Instr) (s t : State) (e k : Nat),
    exec i s = .next t → t.enc.responses = s.enc.responses ++ [.errIo e k] →
    ∃ p, t.enc.trace.getLast? = some { prim := p, result := .err e } ∧
      (∀ l lvl, p = .lineWrite l lvl → t.enc.out.get l = .unknown) ∧
      (∀ bytes, p = .busTx bytes → t.enc.out.cs = .low) ∧ t.enc.busy = false

/-- After a successful operation that drives the bus `CS` is high and `DC` known, after `ENC_INIT` `RST` is high too,
whatever the lines held before (R25, R121, R124, R133; the spec's inferences R123, R224 and R230). -/
def Obligations.SuccessLeavesChipSelectHigh : Prop :=
  ∀ (i : Instr) (s t : State), s.cfg.Valid →
    (i.op = .encInit ∨ i.op = .encUpdate ∨ i.op = .encDrawImage ∨ i.op = .encPowerOff) →
    exec i s = .next t → t.enc.responses = s.enc.responses ++ [.ok] →
    t.enc.out.cs = .high ∧ t.enc.out.dc ≠ .unknown ∧ (i.op = .encInit → t.enc.out.rst = .high)

/-- The trace length of every encoder operation, whatever the environment answered: on success the operation's number of
primitives, on `IoError(e, k)` `k + 1` events of which the last is the failing one (the spec's inference R150, from R120, R133,
R137, R145 and R149). -/
def Obligations.EncoderTraceLengths : Prop :=
  ∀ (i : Instr) (s t : State), i.op.port = .encoder → exec i s = .next t →
    ∃ new r, t.enc.trace = s.enc.trace ++ new ∧ t.enc.responses = s.enc.responses ++ [r] ∧
      eventsMatch (traceLength s.cfg i) new r

/-- Only `ENC_INIT` writes the reset line (R39, R202; R224 repeats it). -/
def Obligations.OnlyInitWritesTheResetLine : Prop :=
  ∀ (i : Instr) (s t : State), exec i s = .next t → i ≠ .encInit → t.enc.out.rst = s.enc.out.rst

/-- Every step keeps the output line registers equal to what the trace says was driven: a level after a successful
write, `UNKNOWN` after a failed one (R25). -/
def Obligations.OutputLinesFollowTheTrace : Prop :=
  ∀ s t : State, OutInv s → step s = .next t → OutInv t

/-- Every step keeps every bus transfer of the trace inside a transaction: `CS` low, and one byte with `DC` low or `W`
bytes with `DC` high (R59, R121, R228; the spec's inference R123). -/
def Obligations.BusTransfersStayBracketed : Prop :=
  ∀ s t : State, BusInv s → step s = .next t → BusInv t

/-- Every step leaves both ports free: no operation spans steps (R37, R57; that an encoder operation may be one step is
the spec's inference in R29, log entry 1). -/
def Obligations.PortsAreFreeBetweenSteps : Prop :=
  ∀ s t : State, PortsInv s → step s = .next t → PortsInv t

/-! ### Debouncing (42_debounce.md) -/

/-- The level mapping of every line by its own `ACTIVE_LOW` bit (R160), and the indices and visiting order of the
lines (R30, R161; the order is the spec's own choice D16). -/
def Obligations.LevelMappingFollowsThePolarity : Prop :=
  (∀ (c : Params) (l : Line) (lvl : Level),
    (c.activeLow.getLsbD l.index = true → (mapLevel c l lvl = true ↔ lvl = .low)) ∧
    (c.activeLow.getLsbD l.index = false → (mapLevel c l lvl = true ↔ lvl = .high))) ∧
  Line.all = [.up, .down, .left, .right, .button1, .button2, .button3] ∧
  Line.all.map Line.index = [0, 1, 2, 3, 4, 5, 6]

/-- The three states the source names for a line are derived from its entry and the tick's time (R16). -/
def Obligations.PressPhaseIsDerived : Prop :=
  ∀ (hold now start : Nat) (l : Line) (b : ButtonState),
    (b.pressed = false → pressPhase hold now l b = .idle) ∧
    (b.pressed = true → b.start = some start → (now : Int) - start < hold →
      pressPhase hold now l b = .pressedBeforeThreshold) ∧
    (b.pressed = true → b.start = some start → (hold : Int) ≤ (now : Int) - start →
      pressPhase hold now l b = .pressedAfterThreshold)

/-- A tick while running reads all seven lines in order, whatever their levels, and gives each line the transition of
R163's table; nothing else changes but the response, which goes to the poll timer (R80, R161, R163, R165). That the
listed levels are used first, if seven are listed, speaks of the model's own list (log entry 4). -/
def Obligations.TickGivesEachLineItsTransition : Prop :=
  ∀ (s : State) (now : Nat), s.db.running = true →
    ∃ (t : State) (lv : Line → Level), exec (.dbTick now) s = .next t ∧
      t = { s with db := { s.db with
        bs := t.db.bs
        trace := s.db.trace ++ Line.all.flatMap fun l => visitEvents s.cfg s.db.poll now l (s.db.bs.get l) (lv l)
        levels := t.db.levels
        draws := t.db.draws
        lock := .free
        responses := s.db.responses ++ [{ dest := .pollTimer, reply := .ok }] } } ∧
      (∀ l, t.db.bs.get l = visitEntry s.cfg now l (s.db.bs.get l) (lv l)) ∧
      (∀ vs rest, s.db.levels = vs ++ rest → vs.length = 7 →
        Line.all.map lv = vs ∧ t.db.levels = rest ∧ t.db.draws = s.db.draws)

/-- A tick while stopped reads nothing, emits nothing, writes no state and gets the response `OK` (R173), which goes
to the poll timer (R80). -/
def Obligations.TickWhileStoppedDoesNothing : Prop :=
  ∀ (s : State) (now : Nat), s.db.running = false →
    exec (.dbTick now) s = .next { s with db := { s.db with
      lock := .free, responses := s.db.responses ++ [{ dest := .pollTimer, reply := .ok }] } }

/-- A press edge records the tick's time and emits one click; a release edge emits one release and leaves `start` alone
(R166, R168). -/
def Obligations.EdgesEmitClickAndRelease : Prop :=
  ∀ (s t : State) (now : Nat) (l : Line), s.db.running = true → exec (.dbTick now) s = .next t →
    ∃ new, t.db.trace = s.db.trace ++ new ∧
      ((s.db.bs.get l).pressed = false → (t.db.bs.get l).pressed = true →
        lineEmits l new = [(.click, now)] ∧ (t.db.bs.get l).start = some now) ∧
      ((s.db.bs.get l).pressed = true → (t.db.bs.get l).pressed = false →
        lineEmits l new = [(.release, now)] ∧ (t.db.bs.get l).start = (s.db.bs.get l).start)

/-- A held tick emits a hold exactly when the elapsed time is in `[T, T + P)` with the values as they stand at this tick;
a tick on a line that was not pressed never does (R167). -/
def Obligations.HoldFiresExactlyInItsWindow : Prop :=
  ∀ (s t : State) (now start : Nat) (l : Line), s.db.running = true → exec (.dbTick now) s = .next t →
    ∃ new, t.db.trace = s.db.trace ++ new ∧
      ((s.db.bs.get l).pressed = true → (s.db.bs.get l).start = some start → (t.db.bs.get l).pressed = true →
        ((EventKind.hold, now) ∈ lineEmits l new ↔
          (s.cfg.hold : Int) ≤ (now : Int) - start ∧ (now : Int) - start < (s.cfg.hold : Int) + s.db.poll)) ∧
      ((s.db.bs.get l).pressed = false → (EventKind.hold, now) ∉ lineEmits l new)

/-- Under ideal timing with a constant interval: of the ticks `t0 + k * P` for `k = 0 .. m`, let the first see the press
edge of a line and all of them read it pressed. Then the line's events are its click and, if `T > 0` and
`m ≥ ceil(T / P)`, exactly one hold, at tick `ceil(T / P)`; otherwise no hold (the spec's inference R177, from R165, R167
and the premise R175). -/
def Obligations.HoldFiresOncePerPress : Prop :=
  ∀ (s : State) (l : Line) (t0 m : Nat),
    s.db.running = true → 0 < s.db.poll → (s.db.bs.get l).pressed = false →
    ∃ t new, execAll (idealTicks t0 s.db.poll m) s = some t ∧ t.db.trace = s.db.trace ++ new ∧
      ((∀ lvl, DbEvent.readLevel l lvl ∈ new → mapLevel s.cfg l lvl = true) →
        lineEmits l new = (.click, t0) ::
          if 0 < s.cfg.hold ∧ (s.cfg.hold + s.db.poll - 1) / s.db.poll ≤ m then
            [(.hold, t0 + (s.cfg.hold + s.db.poll - 1) / s.db.poll * s.db.poll)]
          else [])

/-- `DB_START` sets the running flag, a second one changes nothing; `DB_STOP` clears it; neither touches anything else
but the response (R170, R171). That the response goes to the host is DEDUCED (log entry 11). -/
def Obligations.StartAndStopWriteTheRunningFlag : Prop :=
  ∀ s : State,
    exec .dbStart s = .next { s with db := { s.db with
      running := true, lock := .free, responses := s.db.responses ++ [{ dest := .host, reply := .ok }] } } ∧
    exec .dbStop s = .next { s with db := { s.db with
      running := false, lock := .free, responses := s.db.responses ++ [{ dest := .host, reply := .ok }] } }

/-- `DB_SET_POLL(p)` writes `CFG.P`; `p = 0` is refused and changes nothing (R82, R172). That the term
`DB_SET_POLL(0)` is answered with `ERR_ILLEGAL` and opcode byte 0x23, and that the response goes to the host, is
DEDUCED (log entry 11). -/
def Obligations.SetPollWritesTheInterval : Prop :=
  ∀ (s : State) (p : Nat),
    (0 < p → exec (.dbSetPoll p) s = .next { s with db := { s.db with
      poll := p, lock := .free, responses := s.db.responses ++ [{ dest := .host, reply := .ok }] } }) ∧
    exec (.dbSetPoll 0) s = .next { s with db := { s.db with
      lock := .free, responses := s.db.responses ++ [{ dest := .host, reply := .errIllegal 0x23#8 }] } }

/-- Stopping and starting keeps the ButtonState file, and ticks in between leave no mark: the next tick acts as if they
had not come (R165, R170, R171, R173). So a line pressed at the stop and seen released then emits its release, as R165,
R168 and V-B15 have it, where a clause of R180, the spec's inference, has none: the model's choice (log entry 19). -/
def Obligations.StoppedTicksLeaveNoMark : Prop :=
  ∀ (s : State) (times : List Nat) (now : Nat), s.db.running = true →
    ∃ t u, execAll (.dbStop :: times.map Instr.dbTick ++ [.dbStart, .dbTick now]) s = some t ∧
      exec (.dbTick now) s = .next u ∧ t.db.bs = u.db.bs ∧ t.db.trace = u.db.trace ∧ t.db.running = true

/-- Every step keeps the event grammar of every line: clicks and releases alternate from a click, holds lie inside a
press, and `pressed` says whether the line is in one (the spec's inference R179, from R163 and R165). -/
def Obligations.EventGrammarIsKept : Prop :=
  ∀ s t : State, GrammarInv s → step s = .next t → GrammarInv t

/-- Every step keeps `start` the time of the line's last press edge (the spec's inference R32, from R165). -/
def Obligations.StartIsTheLastPressEdge : Prop :=
  ∀ s t : State, StartInv s → step s = .next t → StartInv t

/-- A pressed line has a start, so no held tick reads `UNSET` (the spec's inference R32, from R165). -/
def Obligations.PressedLineHasAStart : Prop := ∀ s : State, GrammarInv s → StartInv s → PressedHasStart s

/-- Every step keeps the poll interval positive (R33, R39). -/
def Obligations.PollIntervalStaysPositive : Prop :=
  ∀ s t : State, PollInv s → step s = .next t → PollInv t
end

