-- ==== Sys2Proof/Laws/Assembler.lean ====
section
/-! SUPPORT. What the assembler answers (30_encoding.md R86): `assembleTerm_of_termOf` for any line whose mnemonic and operands
are read, `integerOperand_decimalOperand` and its neighbours for one operand, `assembleTerm_sourceLine` for the line of a
term. -/

namespace Sys2Proof.Machine

/-! ### Any line -/

/-- A line whose operands are read assembles exactly when they fit. -/
theorem assembleTerm_of_termOf {line : List Char} {o : Op} {i : Instr} (hm : mnemonicOp (mnemonicText line) = some o)
    (ht : termOf o (splitOperands (operandText line)) = some i) :
    assembleTerm line = if i.fitsFields then some i else none := by
  simp only [assembleTerm, hm, ht]

/-- A line whose operands are read for no operation does not assemble. -/
theorem assembleTerm_eq_none {line : List Char}
    (h : ∀ o, mnemonicOp (mnemonicText line) = some o → termOf o (splitOperands (operandText line)) = none) :
    assembleTerm line = none := by
  unfold assembleTerm
  split
  · rfl
  · next o hm => simp only [h o hm]

/-- What assembles fits its fields. -/
theorem fitsFields_of_assembleTerm {line : List Char} {i : Instr} (h : assembleTerm line = some i) :
    i.fitsFields = true := by
  unfold assembleTerm at h
  split at h
  · cases h
  · split at h
    · cases h
    · split at h
      · next hf => exact Option.some.inj h ▸ hf
      · cases h

/-! ### Numerals -/

theorem digitValue_digitChar {d : Nat} (h : d < 16) : digitValue d.digitChar = some d := by
  interval_cases d <;> decide

theorem digitsFrom_append (base acc : Nat) (xs ys : List Char) :
    digitsFrom base acc (xs ++ ys) = (digitsFrom base acc xs).bind fun a => digitsFrom base a ys := by
  induction xs generalizing acc with
  | nil => rfl
  | cons c cs ih =>
    simp only [List.cons_append, digitsFrom]
    split
    · split
      · exact ih _
      · rfl
    · rfl

/-- Digits read back the number they were written from. -/
theorem digitsFrom_toDigits {base : Nat} (h1 : 1 < base) (h2 : base ≤ 16) (n : Nat) :
    digitsFrom base 0 (Nat.toDigits base n) = some n := by
  induction n using Nat.strong_induction_on with
  | _ n ih =>
    by_cases h : n < base
    · rw [Nat.toDigits_of_lt_base h]
      simp [digitsFrom, digitValue_digitChar (h.trans_le h2), h]
    · have hb : base ≤ n := Nat.le_of_not_lt h
      have hm : n % base < base := Nat.mod_lt _ (by omega)
      rw [Nat.toDigits_of_base_le h1 hb, digitsFrom_append, ih _ (Nat.div_lt_self (by omega) h1)]
      simp [digitsFrom, digitValue_digitChar (hm.trans_le h2), hm, Nat.div_add_mod']

theorem numeral_toDigits {base : Nat} (h1 : 1 < base) (h2 : base ≤ 16) (n : Nat) :
    numeral base (Nat.toDigits base n) = some n := by
  have h := digitsFrom_toDigits h1 h2 n
  unfold numeral
  split
  · next he => exact absurd he Nat.toDigits_ne_nil
  · exact h

/-! ### Operands -/

theorem integerOperand_hexadecimal (n : Nat) : integerOperand ('0' :: 'x' :: Nat.toDigits 16 n) = some (n : Int) := by
  simp [integerOperand, numeral_toDigits]

theorem integerOperand_toDigits (n : Nat) : integerOperand (Nat.toDigits 10 n) = some (n : Int) := by
  have hd : ∀ c ∈ Nat.toDigits 10 n, c.isDigit = true := fun c => Nat.isDigit_of_mem_toDigits (by decide) (by decide)
  have hn := numeral_toDigits (base := 10) (by decide) (by decide) n
  unfold integerOperand
  split
  · next he => exact absurd (hd 'x' (by simp [he])) (by decide)
  · next he => exact absurd (hd '-' (by simp [he])) (by decide)
  · simp [hn]

/-- A decimal operand reads back its number. -/
theorem integerOperand_decimalOperand (x : Int) : integerOperand (decimalOperand x) = some x := by
  cases x with
  | ofNat n => exact integerOperand_toDigits n
  | negSucc n => simp [decimalOperand, integerOperand, numeral_toDigits, Int.negSucc_eq]

theorem timeOperand_toDigits (n : Nat) : timeOperand (Nat.toDigits 10 n) = some n := by
  simp [timeOperand, integerOperand_toDigits]

theorem bitOperand_onOff (on : Bool) : bitOperand (onOff on) = some on := by cases on <;> decide

/-! ### Tokens -/

/-- Text with no blank and no comma, and not empty. -/
def IsToken (cs : List Char) : Prop := cs ≠ [] ∧ ∀ c ∈ cs, isBlank c = false ∧ c ≠ ','

theorem isToken_toDigits (n : Nat) : IsToken (Nat.toDigits 10 n) := by
  refine ⟨Nat.toDigits_ne_nil, fun c hc => ?_⟩
  have h := Nat.isDigit_of_mem_toDigits (by decide) (by decide) hc
  constructor
  · rw [Bool.eq_false_iff]
    rintro hb
    simp only [isBlank, Bool.or_eq_true, beq_iff_eq] at hb
    rcases hb with rfl | rfl <;> exact absurd h (by decide)
  · rintro rfl
    exact absurd h (by decide)

theorem isToken_decimalOperand (x : Int) : IsToken (decimalOperand x) := by
  cases x with
  | ofNat n => exact isToken_toDigits n
  | negSucc n =>
    refine ⟨by simp [decimalOperand], fun c hc => ?_⟩
    rcases List.mem_cons.1 hc with rfl | hc
    · decide
    · exact (isToken_toDigits (n + 1)).2 c hc

/-- A closed text is seen to be a token by evaluation. -/
theorem isToken_of_all {cs : List Char} (h : (!cs.isEmpty && cs.all fun c => !isBlank c && c != ',') = true) : IsToken cs := by
  simp only [Bool.and_eq_true, List.all_eq_true, Bool.not_eq_true', bne_iff_ne] at h
  exact ⟨by rintro rfl; exact absurd h.1 (by decide), h.2⟩

theorem isToken_onOff (on : Bool) : IsToken (onOff on) := by cases on <;> exact isToken_of_all (by decide)

theorem skipBlanks_token_append {a : List Char} (h : IsToken a) (cs : List Char) : skipBlanks (a ++ cs) = a ++ cs := by
  cases a with
  | nil => exact absurd rfl h.1
  | cons c m => simp [skipBlanks, (h.2 c (by simp)).1]

theorem IsToken.reverse {a : List Char} (h : IsToken a) : IsToken a.reverse :=
  ⟨by simpa using h.1, fun c hc => h.2 c (List.mem_reverse.1 hc)⟩

/-- Text that begins and ends with a token is not trimmed. -/
theorem trimBlanks_of_tokens {a b cs ds : List Char} (ha : IsToken a) (hb : IsToken b) (h : a ++ cs = ds ++ b) :
    trimBlanks (a ++ cs) = a ++ cs := by
  have hr : (a ++ cs).reverse = b.reverse ++ ds.reverse := by rw [h, List.reverse_append]
  unfold trimBlanks
  rw [skipBlanks_token_append ha, hr, skipBlanks_token_append hb.reverse, ← hr, List.reverse_reverse]

theorem trimBlanks_token {a : List Char} (h : IsToken a) : trimBlanks a = a := by
  simpa using trimBlanks_of_tokens (cs := []) (ds := []) h h (by simp)

theorem trimBlanks_blank (cs : List Char) : trimBlanks (' ' :: cs) = trimBlanks cs := rfl

/-! ### Joined operands -/

/-- The operands after the first, each behind a comma and a blank. -/
def joinRest (rest : List (List Char)) : List Char := rest.flatMap fun b => ',' :: ' ' :: b

theorem joinOperands_cons (a : List Char) (rest : List (List Char)) :
    joinOperands (a :: rest) = ' ' :: (a ++ joinRest rest) := by
  induction rest generalizing a with
  | nil => simp [joinOperands, joinRest]
  | cons b rest ih => simp [joinOperands, joinRest, ih]

/-- Joined operands end with a token. -/
theorem joinRest_ends {a : List Char} (ha : IsToken a) (rest : List (List Char)) (hr : ∀ b ∈ rest, IsToken b) :
    ∃ ds b, IsToken b ∧ a ++ joinRest rest = ds ++ b := by
  induction rest generalizing a with
  | nil => exact ⟨[], a, ha, by simp [joinRest]⟩
  | cons c rest ih =>
    obtain ⟨ds, b, hb, he⟩ := ih (hr c (by simp)) fun b hb => hr b (by simp [hb])
    refine ⟨a ++ ',' :: ' ' :: ds, b, hb, ?_⟩
    have : joinRest (c :: rest) = ',' :: ' ' :: (c ++ joinRest rest) := by simp [joinRest]
    rw [this, he]; simp

theorem splitOn_join {a : List Char} (ha : ',' ∉ a) (rest : List (List Char)) (hr : ∀ b ∈ rest, ',' ∉ b) :
    (a ++ joinRest rest).splitOn ',' = a :: rest.map (' ' :: ·) := by
  induction rest generalizing a with
  | nil => simpa [joinRest] using List.splitOn_eq_singleton ha
  | cons c rest ih =>
    have hj : joinRest (c :: rest) = ',' :: ((' ' :: c) ++ joinRest rest) := by simp [joinRest]
    rw [hj, List.splitOn_append_cons_self_of_not_mem ha, ih (by simpa using hr c (by simp)) fun b hb => hr b (by simp [hb])]
    rfl

/-- Joined tokens are cut into themselves. -/
theorem splitOperands_joinOperands (ops : List (List Char)) (h : ∀ a ∈ ops, IsToken a) :
    splitOperands (joinOperands ops) = ops := by
  cases ops with
  | nil => rfl
  | cons a rest =>
    have ha := h a (by simp)
    have hr : ∀ b ∈ rest, IsToken b := fun b hb => h b (by simp [hb])
    obtain ⟨ds, b, hb, he⟩ := joinRest_ends ha rest hr
    have ht : trimBlanks (joinOperands (a :: rest)) = a ++ joinRest rest := by
      rw [joinOperands_cons, trimBlanks_blank, trimBlanks_of_tokens ha hb he]
    unfold splitOperands
    rw [ht]
    split
    · next hn => exact absurd (List.append_eq_nil_iff.1 hn).1 ha.1
    · next c cs hc =>
      rw [← hc, splitOn_join (fun hm => (ha.2 _ hm).2 rfl) rest fun b hb hm => ((hr b hb).2 _ hm).2 rfl]
      simp only [List.map_cons, List.map_map, trimBlanks_token ha, List.cons.injEq, true_and]
      refine (List.map_congr_left fun b hb => ?_).trans (List.map_id rest)
      exact (trimBlanks_blank b).trans (trimBlanks_token (hr b hb))

/-! ### The line of a term -/

/-- A token followed by joined operands is read as its mnemonic and its operands. -/
theorem line_parts {m : List Char} (hm : IsToken m) (ops : List (List Char)) :
    mnemonicText (m ++ joinOperands ops) = m ∧ operandText (m ++ joinOperands ops) = joinOperands ops := by
  have hp : ∀ c ∈ m, (!isBlank c) = true := fun c hc => by simp [(hm.2 c hc).1]
  unfold mnemonicText operandText
  rw [skipBlanks_token_append hm, List.takeWhile_append_of_pos hp, List.dropWhile_append_of_pos hp]
  cases ops with
  | nil => simp [joinOperands]
  | cons a rest => rw [joinOperands_cons]; constructor <;> simp [isBlank]

theorem isToken_sourceMnemonic (o : Op) : IsToken (sourceMnemonic o) := by
  cases o <;> exact isToken_of_all (by decide)

theorem isToken_sourceOperands (i : Instr) : ∀ a ∈ sourceOperands i, IsToken a := by
  cases i <;> simp [sourceOperands, isToken_decimalOperand, isToken_toDigits, isToken_onOff]

theorem mnemonicOp_sourceMnemonic (o : Op) : mnemonicOp (sourceMnemonic o) = some o := by cases o <;> decide

theorem termOf_sourceOperands (i : Instr) : termOf i.op (sourceOperands i) = some i := by
  cases i <;>
    simp [termOf, sourceOperands, Instr.op, integerOperand_decimalOperand, timeOperand_toDigits, bitOperand_onOff]

/-- The line of a term assembles to the term exactly when its operands fit. -/
theorem assembleTerm_sourceLine (i : Instr) : assembleTerm (sourceLine i) = if i.fitsFields then some i else none := by
  obtain ⟨hm, ho⟩ := line_parts (isToken_sourceMnemonic i.op) (sourceOperands i)
  refine assembleTerm_of_termOf (o := i.op) ?_ ?_
  · unfold sourceLine; rw [hm, mnemonicOp_sourceMnemonic]
  · unfold sourceLine
    rw [ho, splitOperands_joinOperands _ (isToken_sourceOperands i), termOf_sourceOperands]

end Sys2Proof.Machine
end

