-- ==== Sys2Proof/Laws/Memory.lean ====
section
/-! SUPPORT. The laws of framebuffer bytes (20_memory.md): read after write, the canonical form kept by every
operation, equal reads give equal memories; and of pixels (40_framebuffer.md). -/

namespace Sys2Proof.Machine

/-! ### The canonical form -/

theorem Memory.wf_nil : Memory.wf [] = true := rfl

/-- A canonical memory split at its head: the head is no unlisted byte and lies below everything after it. -/
theorem Memory.wf_cons_iff (a : Nat) (b : Byte) (rest : Memory) :
    Memory.wf ((a, b) :: rest) = true ↔
      b ≠ unlistedByte ∧ Memory.wf rest = true ∧ ∀ c ∈ rest, a < c.1 := by
  induction rest generalizing a b with
  | nil => simp [Memory.wf]
  | cons d rest ih =>
    obtain ⟨d1, d2⟩ := d
    simp only [Memory.wf, Bool.and_eq_true, bne_iff_ne, ne_eq, decide_eq_true_eq, List.mem_cons,
      forall_eq_or_imp]
    constructor
    · rintro ⟨⟨hb, had⟩, hwf⟩
      exact ⟨hb, hwf, had, fun c hc => Nat.lt_trans had (((ih d1 d2).1 hwf).2.2 c hc)⟩
    · rintro ⟨hb, hwf, had, _⟩
      exact ⟨⟨hb, had⟩, hwf⟩

/-- A canonical memory reads as unlisted below its first address. -/
theorem Memory.read_of_lt {m : Memory} {i : Nat} (h : ∀ c ∈ m, i < c.1) : Memory.read m i = unlistedByte := by
  induction m with
  | nil => rfl
  | cons c rest ih =>
    obtain ⟨a, b⟩ := c
    have ha : i < a := h (a, b) (by simp)
    simp only [Memory.read, if_neg (Nat.ne_of_lt ha)]
    exact ih fun c hc => h c (by simp [hc])

theorem Memory.mem_cons_cell {i : Nat} {v : Byte} {rest : Memory} {c : Host.Cell}
    (h : c ∈ Memory.cons i v rest) : c = (i, v) ∨ c ∈ rest := by
  unfold Memory.cons at h
  split at h <;> simp_all

/-- Every cell of a written memory is the written one or was there before. -/
theorem Memory.mem_write {m : Memory} {i : Nat} {v : Byte} {c : Host.Cell} (h : c ∈ Memory.write m i v) :
    c = (i, v) ∨ c ∈ m := by
  induction m with
  | nil => exact Memory.mem_cons_cell h
  | cons d rest ih =>
    obtain ⟨a, b⟩ := d
    simp only [Memory.write] at h
    split at h
    · exact Memory.mem_cons_cell h
    · split at h
      · rcases Memory.mem_cons_cell h with h | h <;> simp [h]
      · rcases List.mem_cons.1 h with h | h
        · simp [h]
        · rcases ih h with h | h <;> simp [h]

theorem Memory.wf_cons_cell {i : Nat} {v : Byte} {rest : Memory} (hw : Memory.wf rest = true)
    (hlt : ∀ c ∈ rest, i < c.1) : Memory.wf (Memory.cons i v rest) = true := by
  unfold Memory.cons
  split
  · exact hw
  · next hv => exact (Memory.wf_cons_iff i v rest).2 ⟨hv, hw, hlt⟩

/-- A write keeps the canonical form. -/
theorem Memory.wf_write {m : Memory} (i : Nat) (v : Byte) (h : Memory.wf m = true) :
    Memory.wf (Memory.write m i v) = true := by
  induction m with
  | nil => exact Memory.wf_cons_cell rfl (by simp)
  | cons d rest ih =>
    obtain ⟨a, b⟩ := d
    obtain ⟨hb, hw, hlt⟩ := (Memory.wf_cons_iff a b rest).1 h
    simp only [Memory.write]
    split
    · next hia =>
      refine Memory.wf_cons_cell h fun c hc => ?_
      rcases List.mem_cons.1 hc with rfl | hc
      · exact hia
      · exact Nat.lt_trans hia (hlt c hc)
    · split
      · next hia => exact Memory.wf_cons_cell hw (by simpa [hia] using hlt)
      · next h1 h2 =>
        refine (Memory.wf_cons_iff a b _).2 ⟨hb, ih hw, fun c hc => ?_⟩
        rcases Memory.mem_write hc with rfl | hc
        · exact Nat.lt_of_le_of_ne (Nat.le_of_not_lt h1) (Ne.symm h2)
        · exact hlt c hc

theorem Memory.read_cons_cell (i : Nat) (v : Byte) (rest : Memory) (j : Nat)
    (hlt : ∀ c ∈ rest, i < c.1) :
    Memory.read (Memory.cons i v rest) j = if j = i then v else Memory.read rest j := by
  unfold Memory.cons
  split
  · next hv =>
    split
    · next hj => rw [hj, Memory.read_of_lt hlt, hv]
    · rfl
  · rfl

/-- Read after write. -/
theorem Memory.read_write {m : Memory} (i : Nat) (v : Byte) (j : Nat) (h : Memory.wf m = true) :
    Memory.read (Memory.write m i v) j = if j = i then v else Memory.read m j := by
  induction m with
  | nil => exact Memory.read_cons_cell i v [] j (by simp)
  | cons d rest ih =>
    obtain ⟨a, b⟩ := d
    obtain ⟨_, hw, hlt⟩ := (Memory.wf_cons_iff a b rest).1 h
    simp only [Memory.write]
    split
    · next hia =>
      refine Memory.read_cons_cell i v _ j fun c hc => ?_
      rcases List.mem_cons.1 hc with rfl | hc
      · exact hia
      · exact Nat.lt_trans hia (hlt c hc)
    · split
      · next hia =>
        subst hia
        rw [Memory.read_cons_cell i v rest j hlt]
        simp only [Memory.read]
        split <;> rfl
      · next h1 h2 =>
        simp only [Memory.read, ih hw]
        by_cases hja : j = a
        · subst hja; simp [Ne.symm h2]
        · simp [hja]

/-! ### The address space -/

theorem Memory.within_iff (n : Nat) (m : Memory) : Memory.within n m = true ↔ ∀ c ∈ m, c.1 < n := by
  simp [Memory.within]

theorem Memory.within_write {n : Nat} {m : Memory} {i : Nat} (v : Byte) (h : Memory.within n m = true)
    (hi : i < n) : Memory.within n (Memory.write m i v) = true := by
  rw [Memory.within_iff] at h ⊢
  intro c hc
  rcases Memory.mem_write hc with rfl | hc
  · exact hi
  · exact h c hc

/-! ### Filling -/

/-- Reading past the bytes kept by a filter on addresses. -/
theorem Memory.read_filter_ge (m : Memory) (n i : Nat) :
    Memory.read (m.filter fun c => decide (n ≤ c.1)) i = if i < n then unlistedByte else Memory.read m i := by
  induction m with
  | nil => simp [Memory.read]
  | cons c rest ih =>
    obtain ⟨a, b⟩ := c
    by_cases ha : n ≤ a
    · simp only [List.filter_cons, ha, decide_true, if_true, Memory.read, ih]
      by_cases hia : i = a
      · subst hia; simp [Nat.not_lt.2 ha]
      · simp [hia]
    · simp only [List.filter_cons, ha, decide_false, Bool.false_eq_true, if_false, ih, Memory.read]
      by_cases hi : i < n
      · simp [hi]
      · have : i ≠ a := by omega
        simp [this]

theorem Memory.read_range_map (n : Nat) (v : Byte) (rest : Memory) (i : Nat) :
    Memory.read (((List.range n).map fun i => (i, v)) ++ rest) i = if i < n then v else Memory.read rest i := by
  have key : ∀ k base : Nat, Memory.read (((List.range' base k).map fun i => (i, v)) ++ rest) i =
      if base ≤ i ∧ i < base + k then v else Memory.read rest i := by
    intro k
    induction k with
    | zero => intro base; simp [List.range']
    | succ k ih =>
      intro base
      simp only [List.range'_succ, List.map_cons, List.cons_append, Memory.read, ih]
      by_cases h : i = base
      · subst h; simp
      · simp only [if_neg h]
        have : (base + 1 ≤ i ∧ i < base + 1 + k) ↔ (base ≤ i ∧ i < base + (k + 1)) := by omega
        simp only [this]
  have := key n 0
  simpa [List.range_eq_range'] using this

/-- A filled memory reads `v` below `n` and as before from `n` up. -/
theorem Memory.read_fill (m : Memory) (n : Nat) (v : Byte) (i : Nat) :
    Memory.read (Memory.fill m n v) i = if i < n then v else Memory.read m i := by
  unfold Memory.fill
  split
  · next hv =>
    rw [List.nil_append, Memory.read_filter_ge, hv]
  · rw [Memory.read_range_map, Memory.read_filter_ge]
    split <;> rfl

theorem Memory.wf_filter {m : Memory} (p : Host.Cell → Bool) (h : Memory.wf m = true) :
    Memory.wf (m.filter p) = true := by
  induction m with
  | nil => rfl
  | cons c rest ih =>
    obtain ⟨a, b⟩ := c
    obtain ⟨hb, hw, hlt⟩ := (Memory.wf_cons_iff a b rest).1 h
    rw [List.filter_cons]
    split
    · exact (Memory.wf_cons_iff a b _).2 ⟨hb, ih hw, fun c hc => hlt c (List.mem_filter.1 hc).1⟩
    · exact ih hw

theorem Memory.wf_range_map (n : Nat) (v : Byte) (rest : Memory) (hv : v ≠ unlistedByte)
    (hw : Memory.wf rest = true) (hlt : ∀ c ∈ rest, n ≤ c.1) :
    Memory.wf (((List.range n).map fun i => (i, v)) ++ rest) = true := by
  have key : ∀ k base : Nat, base + k = n →
      Memory.wf (((List.range' base k).map fun i => (i, v)) ++ rest) = true := by
    intro k
    induction k with
    | zero => intro base _; simpa [List.range'] using hw
    | succ k ih =>
      intro base hb
      simp only [List.range'_succ, List.map_cons, List.cons_append]
      refine (Memory.wf_cons_iff _ _ _).2 ⟨hv, ih (base + 1) (by omega), fun c hc => ?_⟩
      rcases List.mem_append.1 hc with hc | hc
      · obtain ⟨j, hj, rfl⟩ := List.mem_map.1 hc
        have := List.mem_range'_1.1 hj
        show base < j
        omega
      · have := hlt c hc
        omega
  simpa [List.range_eq_range'] using key n 0 (by omega)

/-- Filling keeps the canonical form. -/
theorem Memory.wf_fill {m : Memory} (n : Nat) (v : Byte) (h : Memory.wf m = true) :
    Memory.wf (Memory.fill m n v) = true := by
  unfold Memory.fill
  split
  · exact Memory.wf_filter _ h
  · next hv =>
    exact Memory.wf_range_map n v _ hv (Memory.wf_filter _ h) fun c hc => by
      simpa using (List.mem_filter.1 hc).2

theorem Memory.within_fill {n : Nat} {m : Memory} (v : Byte) (h : Memory.within n m = true) :
    Memory.within n (Memory.fill m n v) = true := by
  rw [Memory.within_iff] at h ⊢
  intro c hc
  unfold Memory.fill at hc
  rcases List.mem_append.1 hc with hc | hc
  · split at hc
    · simp at hc
    · obtain ⟨i, hi, rfl⟩ := List.mem_map.1 hc
      exact List.mem_range.1 hi
  · exact h c (List.mem_filter.1 hc).1

/-! ### Equal reads, equal memories -/

/-- Canonical memories that read alike everywhere are equal as data. -/
theorem Memory.ext_read {m m' : Memory} (h : Memory.wf m = true) (h' : Memory.wf m' = true)
    (hr : ∀ i, Memory.read m i = Memory.read m' i) : m = m' := by
  induction m generalizing m' with
  | nil =>
    cases m' with
    | nil => rfl
    | cons c rest =>
      obtain ⟨a, b⟩ := c
      have hb := ((Memory.wf_cons_iff a b rest).1 h').1
      have := hr a
      simp only [Memory.read, if_true] at this
      exact absurd this.symm hb
  | cons c rest ih =>
    obtain ⟨a, b⟩ := c
    obtain ⟨hb, hw, hlt⟩ := (Memory.wf_cons_iff a b rest).1 h
    cases m' with
    | nil =>
      have := hr a
      simp only [Memory.read, if_true] at this
      exact absurd this hb
    | cons c' rest' =>
      obtain ⟨a', b'⟩ := c'
      obtain ⟨hb', hw', hlt'⟩ := (Memory.wf_cons_iff a' b' rest').1 h'
      have haa : a = a' := by
        rcases Nat.lt_trichotomy a a' with hlt1 | heq | hlt1
        · have h1 := hr a
          rw [Memory.read_of_lt (m := (a', b') :: rest') (i := a) ?_] at h1
          · simp only [Memory.read, if_true] at h1
            exact absurd h1 hb
          · intro c hc
            rcases List.mem_cons.1 hc with rfl | hc
            · exact hlt1
            · exact Nat.lt_trans hlt1 (hlt' c hc)
        · exact heq
        · have h1 := hr a'
          rw [Memory.read_of_lt (m := (a, b) :: rest) (i := a') ?_] at h1
          · simp only [Memory.read, if_true] at h1
            exact absurd h1.symm hb'
          · intro c hc
            rcases List.mem_cons.1 hc with rfl | hc
            · exact hlt1
            · exact Nat.lt_trans hlt1 (hlt c hc)
      subst haa
      have hbb : b = b' := by simpa [Memory.read] using hr a
      subst hbb
      congr 1
      refine ih hw hw' fun i => ?_
      by_cases hia : i = a
      · subst hia; rw [Memory.read_of_lt hlt, Memory.read_of_lt hlt']
      · simpa [Memory.read, hia] using hr i

/-! ### Pixels -/

/-- In bounds, as four inequalities (R100). -/
theorem inB_iff (c : Params) (x y : Int) :
    inB c x y = true ↔ (0 ≤ x ∧ x < c.width) ∧ 0 ≤ y ∧ y < c.height := by
  simp [inB, and_assoc]

theorem pixelBit_lt (y : Int) : pixelBit y < 8 := Nat.mod_lt _ (by decide)

/-- Every in-bounds pixel's byte lies in the framebuffer space (R22). -/
theorem pixelIndex_lt {c : Params} {x y : Int} (hh : c.height % 8 = 0) (h : inB c x y = true) :
    pixelIndex c x y < c.bytes := by
  obtain ⟨⟨hx0, hx⟩, hy0, hy⟩ := (inB_iff c x y).1 h
  have hyp : y.toNat / 8 < c.pages := by
    unfold Params.pages
    omega
  have hxw : x.toNat < c.width := by omega
  unfold pixelIndex Params.bytes
  calc y.toNat / 8 * c.width + x.toNat < y.toNat / 8 * c.width + c.width := by omega
    _ = (y.toNat / 8 + 1) * c.width := by ring
    _ ≤ c.pages * c.width := Nat.mul_le_mul_right _ hyp
    _ = c.width * c.pages := Nat.mul_comm _ _

/-- Different in-bounds pixels are different bits (R22). -/
theorem pixel_injective {c : Params} {x y x' y' : Int} (h : inB c x y = true) (h' : inB c x' y' = true)
    (hi : pixelIndex c x y = pixelIndex c x' y') (hb : pixelBit y = pixelBit y') : x = x' ∧ y = y' := by
  obtain ⟨⟨hx0, hx⟩, hy0, hy⟩ := (inB_iff c x y).1 h
  obtain ⟨⟨hx0', hx'⟩, hy0', hy'⟩ := (inB_iff c x' y').1 h'
  have hxw : x.toNat < c.width := by omega
  have hxw' : x'.toNat < c.width := by omega
  unfold pixelIndex at hi
  unfold pixelBit at hb
  have hmod : x.toNat = x'.toNat := by
    have := congrArg (· % c.width) hi
    simpa [Nat.add_mod, Nat.mod_eq_of_lt hxw, Nat.mod_eq_of_lt hxw'] using this
  have hdiv : y.toNat / 8 = y'.toNat / 8 := by
    have hpos : 0 < c.width := by omega
    rw [hmod] at hi
    exact Nat.eq_of_mul_eq_mul_right hpos (by omega)
  omega

theorem getLsbD_pixelMask (y : Int) (j : Nat) (hj : j < 8) :
    (pixelMask y).getLsbD j = decide (j = pixelBit y) := by
  have hb := pixelBit_lt y
  unfold pixelMask
  generalize pixelBit y = k at hb ⊢
  have hall : ∀ k : Fin 8, ∀ j : Fin 8, (1#8 <<< k.val).getLsbD j.val = decide (j.val = k.val) := by decide
  exact hall ⟨k, hb⟩ ⟨j, hj⟩

/-- Setting a masked bit changes that bit only (R102). -/
theorem getLsbD_withBit (b : Byte) (y : Int) (on : Bool) (j : Nat) (hj : j < 8) :
    (withBit b (pixelMask y) on).getLsbD j = if j = pixelBit y then on else b.getLsbD j := by
  unfold withBit
  cases on
  · simp only [Bool.false_eq_true, if_false, BitVec.getLsbD_and, BitVec.getLsbD_not, getLsbD_pixelMask y j hj]
    by_cases h : j = pixelBit y <;> simp [h, hj]
  · simp only [if_true, BitVec.getLsbD_or, getLsbD_pixelMask y j hj]
    by_cases h : j = pixelBit y <;> simp [h]

theorem setPixel_of_not_inB {c : Params} {x y : Int} (m : Memory) (on : Bool) (h : inB c x y = false) :
    setPixel c m x y on = m := by simp [setPixel, h]

theorem wf_setPixel {m : Memory} (c : Params) (x y : Int) (on : Bool) (h : Memory.wf m = true) :
    Memory.wf (setPixel c m x y on) = true := by
  unfold setPixel
  split
  · exact Memory.wf_write _ _ h
  · exact h

theorem within_setPixel {m : Memory} {c : Params} (x y : Int) (on : Bool) (hh : c.height % 8 = 0)
    (h : Memory.within c.bytes m = true) : Memory.within c.bytes (setPixel c m x y on) = true := by
  unfold setPixel
  split
  · next hi => exact Memory.within_write _ h (pixelIndex_lt hh hi)
  · exact h

/-- What a byte reads after a pixel write (R102). -/
theorem read_setPixel {m : Memory} (c : Params) (x y : Int) (on : Bool) (i : Nat) (h : Memory.wf m = true) :
    Memory.read (setPixel c m x y on) i =
      if inB c x y = true ∧ i = pixelIndex c x y then withBit (Memory.read m i) (pixelMask y) on
      else Memory.read m i := by
  unfold setPixel
  split
  · next hin =>
    rw [Memory.read_write _ _ _ h]
    by_cases hi : i = pixelIndex c x y
    · subst hi; simp [hin]
    · simp [hi]
  · next hin => simp [hin]

/-- What an in-bounds pixel reads after a pixel write (R105, R106). -/
theorem getPixel_setPixel {m : Memory} {c : Params} (x y : Int) (on : Bool) {x' y' : Int}
    (h : Memory.wf m = true) (h' : inB c x' y' = true) :
    getPixel c (setPixel c m x y on) x' y' =
      if inB c x y = true ∧ x' = x ∧ y' = y then on else getPixel c m x' y' := by
  unfold getPixel
  rw [read_setPixel c x y on _ h]
  by_cases hin : inB c x y = true
  · by_cases hi : pixelIndex c x' y' = pixelIndex c x y
    · simp only [hin, hi, true_and, if_true, getLsbD_withBit _ _ _ _ (pixelBit_lt y')]
      by_cases hb : pixelBit y' = pixelBit y
      · obtain ⟨rfl, rfl⟩ := pixel_injective h' hin hi hb
        simp
      · have : ¬(x' = x ∧ y' = y) := fun hxy => hb (by rw [hxy.2])
        simp [hb, this]
    · have : ¬(x' = x ∧ y' = y) := fun hxy => hi (by rw [hxy.1, hxy.2])
      simp [hi, this]
  · simp [hin]

/-- What an in-bounds pixel reads after a clear (R101, R106). -/
theorem getPixel_fill {c : Params} (m : Memory) (on : Bool) {x y : Int} (hh : c.height % 8 = 0)
    (h : inB c x y = true) :
    getPixel c (Memory.fill m c.bytes (if on then 0xFF#8 else 0x00#8)) x y = on := by
  unfold getPixel
  rw [Memory.read_fill, if_pos (pixelIndex_lt hh h)]
  have hb := pixelBit_lt y
  generalize pixelBit y = k at hb ⊢
  have hall : ∀ b : Bool, ∀ k : Fin 8, (if b then 0xFF#8 else 0x00#8).getLsbD k.val = b := by decide
  exact hall on ⟨k, hb⟩

end Sys2Proof.Machine
end

