-- ==== Sys2Proof/Laws/State.lean ====
section
/-! SUPPORT. One lemma per field for each named update of the state, so that no proof unfolds a record update. -/

namespace Sys2Proof.Machine

/-! ### Replacing a part -/

@[simp] theorem State.withFb_cfg (s : State) (m : Memory) : (s.withFb m).cfg = s.cfg := rfl
@[simp] theorem State.withFb_db (s : State) (m : Memory) : (s.withFb m).db = s.db := rfl
@[simp] theorem State.withFb_pending (s : State) (m : Memory) : (s.withFb m).pending = s.pending := rfl
@[simp] theorem State.withFb_image (s : State) (m : Memory) : (s.withFb m).image = s.image := rfl
@[simp] theorem State.withFb_waits (s : State) (m : Memory) : (s.withFb m).waits = s.waits := rfl
@[simp] theorem State.withFb_enc_fb (s : State) (m : Memory) : (s.withFb m).enc.fb = m := rfl
@[simp] theorem State.withFb_enc_out (s : State) (m : Memory) : (s.withFb m).enc.out = s.enc.out := rfl
@[simp] theorem State.withFb_enc_busy (s : State) (m : Memory) : (s.withFb m).enc.busy = s.enc.busy := rfl
@[simp] theorem State.withFb_enc_k (s : State) (m : Memory) : (s.withFb m).enc.k = s.enc.k := rfl
@[simp] theorem State.withFb_enc_trace (s : State) (m : Memory) : (s.withFb m).enc.trace = s.enc.trace := rfl
@[simp] theorem State.withFb_enc_responses (s : State) (m : Memory) : (s.withFb m).enc.responses = s.enc.responses := rfl
@[simp] theorem State.withFb_enc_answers (s : State) (m : Memory) : (s.withFb m).enc.answers = s.enc.answers := rfl
@[simp] theorem State.withFb_enc_draws (s : State) (m : Memory) : (s.withFb m).enc.draws = s.enc.draws := rfl
@[simp] theorem State.withEnc_cfg (s : State) (e : Encoder) : (s.withEnc e).cfg = s.cfg := rfl
@[simp] theorem State.withEnc_enc (s : State) (e : Encoder) : (s.withEnc e).enc = e := rfl
@[simp] theorem State.withEnc_db (s : State) (e : Encoder) : (s.withEnc e).db = s.db := rfl
@[simp] theorem State.withEnc_pending (s : State) (e : Encoder) : (s.withEnc e).pending = s.pending := rfl
@[simp] theorem State.withEnc_image (s : State) (e : Encoder) : (s.withEnc e).image = s.image := rfl
@[simp] theorem State.withEnc_waits (s : State) (e : Encoder) : (s.withEnc e).waits = s.waits := rfl
@[simp] theorem State.withDb_cfg (s : State) (d : Debounce) : (s.withDb d).cfg = s.cfg := rfl
@[simp] theorem State.withDb_enc (s : State) (d : Debounce) : (s.withDb d).enc = s.enc := rfl
@[simp] theorem State.withDb_db (s : State) (d : Debounce) : (s.withDb d).db = d := rfl
@[simp] theorem State.withDb_pending (s : State) (d : Debounce) : (s.withDb d).pending = s.pending := rfl
@[simp] theorem State.withDb_image (s : State) (d : Debounce) : (s.withDb d).image = s.image := rfl
@[simp] theorem State.withDb_waits (s : State) (d : Debounce) : (s.withDb d).waits = s.waits := rfl
@[simp] theorem Encoder.begin_fb (e : Encoder) : e.begin.fb = e.fb := rfl
@[simp] theorem Encoder.begin_out (e : Encoder) : e.begin.out = e.out := rfl
@[simp] theorem Encoder.begin_busy (e : Encoder) : e.begin.busy = true := rfl
@[simp] theorem Encoder.begin_k (e : Encoder) : e.begin.k = 0 := rfl
@[simp] theorem Encoder.begin_trace (e : Encoder) : e.begin.trace = e.trace := rfl
@[simp] theorem Encoder.begin_responses (e : Encoder) : e.begin.responses = e.responses := rfl
@[simp] theorem Encoder.begin_answers (e : Encoder) : e.begin.answers = e.answers := rfl
@[simp] theorem Encoder.begin_draws (e : Encoder) : e.begin.draws = e.draws := rfl

/-! ### `Encoder.push` -/

@[simp] theorem Encoder.push_fb (e : Encoder) (r : Reply) : (e.push r).fb = e.fb := rfl
@[simp] theorem Encoder.push_out (e : Encoder) (r : Reply) : (e.push r).out = e.out := rfl
@[simp] theorem Encoder.push_busy (e : Encoder) (r : Reply) : (e.push r).busy = e.busy := rfl
@[simp] theorem Encoder.push_k (e : Encoder) (r : Reply) : (e.push r).k = e.k := rfl
@[simp] theorem Encoder.push_trace (e : Encoder) (r : Reply) : (e.push r).trace = e.trace := rfl
@[simp] theorem Encoder.push_answers (e : Encoder) (r : Reply) : (e.push r).answers = e.answers := rfl
@[simp] theorem Encoder.push_draws (e : Encoder) (r : Reply) : (e.push r).draws = e.draws := rfl
@[simp] theorem Encoder.push_responses (e : Encoder) (r : Reply) :
    (e.push r).responses = e.responses ++ [r] := rfl

/-! ### `respondEnc` -/

@[simp] theorem respondEnc_cfg (r : Reply) (s : State) : (respondEnc r s).cfg = s.cfg := rfl
@[simp] theorem respondEnc_db (r : Reply) (s : State) : (respondEnc r s).db = s.db := rfl
@[simp] theorem respondEnc_pending (r : Reply) (s : State) : (respondEnc r s).pending = s.pending := rfl
@[simp] theorem respondEnc_image (r : Reply) (s : State) : (respondEnc r s).image = s.image := rfl
@[simp] theorem respondEnc_waits (r : Reply) (s : State) : (respondEnc r s).waits = s.waits := rfl
@[simp] theorem respondEnc_fb (r : Reply) (s : State) : (respondEnc r s).enc.fb = s.enc.fb := rfl
@[simp] theorem respondEnc_out (r : Reply) (s : State) : (respondEnc r s).enc.out = s.enc.out := rfl
@[simp] theorem respondEnc_busy (r : Reply) (s : State) : (respondEnc r s).enc.busy = false := rfl
@[simp] theorem respondEnc_k (r : Reply) (s : State) : (respondEnc r s).enc.k = s.enc.k := rfl
@[simp] theorem respondEnc_trace (r : Reply) (s : State) : (respondEnc r s).enc.trace = s.enc.trace := rfl
@[simp] theorem respondEnc_answers (r : Reply) (s : State) : (respondEnc r s).enc.answers = s.enc.answers := rfl
@[simp] theorem respondEnc_draws (r : Reply) (s : State) : (respondEnc r s).enc.draws = s.enc.draws := rfl
@[simp] theorem respondEnc_responses (r : Reply) (s : State) :
    (respondEnc r s).enc.responses = s.enc.responses ++ [r] := rfl

/-! ### `Debounce.push` -/

@[simp] theorem Debounce.push_bs (d : Debounce) (q : ReplyTo) (r : Reply) : (d.push q r).bs = d.bs := rfl
@[simp] theorem Debounce.push_poll (d : Debounce) (q : ReplyTo) (r : Reply) : (d.push q r).poll = d.poll := rfl
@[simp] theorem Debounce.push_running (d : Debounce) (q : ReplyTo) (r : Reply) :
    (d.push q r).running = d.running := rfl
@[simp] theorem Debounce.push_lock (d : Debounce) (q : ReplyTo) (r : Reply) : (d.push q r).lock = d.lock := rfl
@[simp] theorem Debounce.push_trace (d : Debounce) (q : ReplyTo) (r : Reply) : (d.push q r).trace = d.trace := rfl
@[simp] theorem Debounce.push_levels (d : Debounce) (q : ReplyTo) (r : Reply) :
    (d.push q r).levels = d.levels := rfl
@[simp] theorem Debounce.push_draws (d : Debounce) (q : ReplyTo) (r : Reply) : (d.push q r).draws = d.draws := rfl
@[simp] theorem Debounce.push_responses (d : Debounce) (q : ReplyTo) (r : Reply) :
    (d.push q r).responses = d.responses ++ [{ dest := q, reply := r }] := rfl

/-! ### `respondDb` -/

@[simp] theorem respondDb_cfg (q : ReplyTo) (r : Reply) (s : State) : (respondDb q r s).cfg = s.cfg := rfl
@[simp] theorem respondDb_enc (q : ReplyTo) (r : Reply) (s : State) : (respondDb q r s).enc = s.enc := rfl
@[simp] theorem respondDb_pending (q : ReplyTo) (r : Reply) (s : State) :
    (respondDb q r s).pending = s.pending := rfl
@[simp] theorem respondDb_image (q : ReplyTo) (r : Reply) (s : State) : (respondDb q r s).image = s.image := rfl
@[simp] theorem respondDb_waits (q : ReplyTo) (r : Reply) (s : State) : (respondDb q r s).waits = s.waits := rfl
@[simp] theorem respondDb_bs (q : ReplyTo) (r : Reply) (s : State) : (respondDb q r s).db.bs = s.db.bs := rfl
@[simp] theorem respondDb_poll (q : ReplyTo) (r : Reply) (s : State) : (respondDb q r s).db.poll = s.db.poll := rfl
@[simp] theorem respondDb_running (q : ReplyTo) (r : Reply) (s : State) :
    (respondDb q r s).db.running = s.db.running := rfl
@[simp] theorem respondDb_lock (q : ReplyTo) (r : Reply) (s : State) : (respondDb q r s).db.lock = .free := rfl
@[simp] theorem respondDb_trace (q : ReplyTo) (r : Reply) (s : State) :
    (respondDb q r s).db.trace = s.db.trace := rfl
@[simp] theorem respondDb_levels (q : ReplyTo) (r : Reply) (s : State) :
    (respondDb q r s).db.levels = s.db.levels := rfl
@[simp] theorem respondDb_draws (q : ReplyTo) (r : Reply) (s : State) :
    (respondDb q r s).db.draws = s.db.draws := rfl
@[simp] theorem respondDb_responses (q : ReplyTo) (r : Reply) (s : State) :
    (respondDb q r s).db.responses = s.db.responses ++ [{ dest := q, reply := r }] := rfl

/-! ### The request ports -/

@[simp] theorem accept_cfg (r : Request) (rest : List Request) (s : State) : (accept r rest s).cfg = s.cfg := by
  unfold accept; cases r.port <;> rfl
@[simp] theorem accept_pending (r : Request) (rest : List Request) (s : State) :
    (accept r rest s).pending = rest := by
  unfold accept; cases r.port <;> rfl
@[simp] theorem accept_image (r : Request) (rest : List Request) (s : State) :
    (accept r rest s).image = r.image := by
  unfold accept; cases r.port <;> rfl
@[simp] theorem accept_waits (r : Request) (rest : List Request) (s : State) :
    (accept r rest s).waits = s.waits := by
  unfold accept; cases r.port <;> rfl
@[simp] theorem accept_fb (r : Request) (rest : List Request) (s : State) :
    (accept r rest s).enc.fb = s.enc.fb := by
  unfold accept; cases r.port <;> rfl
@[simp] theorem accept_out (r : Request) (rest : List Request) (s : State) :
    (accept r rest s).enc.out = s.enc.out := by
  unfold accept; cases r.port <;> rfl
@[simp] theorem accept_trace (r : Request) (rest : List Request) (s : State) :
    (accept r rest s).enc.trace = s.enc.trace := by
  unfold accept; cases r.port <;> rfl
@[simp] theorem accept_responses (r : Request) (rest : List Request) (s : State) :
    (accept r rest s).enc.responses = s.enc.responses := by
  unfold accept; cases r.port <;> rfl
@[simp] theorem accept_bs (r : Request) (rest : List Request) (s : State) :
    (accept r rest s).db.bs = s.db.bs := by
  unfold accept; cases r.port <;> rfl
@[simp] theorem accept_poll (r : Request) (rest : List Request) (s : State) :
    (accept r rest s).db.poll = s.db.poll := by
  unfold accept; cases r.port <;> rfl
@[simp] theorem accept_running (r : Request) (rest : List Request) (s : State) :
    (accept r rest s).db.running = s.db.running := by
  unfold accept; cases r.port <;> rfl
@[simp] theorem accept_dbTrace (r : Request) (rest : List Request) (s : State) :
    (accept r rest s).db.trace = s.db.trace := by
  unfold accept; cases r.port <;> rfl
@[simp] theorem accept_dbResponses (r : Request) (rest : List Request) (s : State) :
    (accept r rest s).db.responses = s.db.responses := by
  unfold accept; cases r.port <;> rfl

@[simp] theorem refuseIllegal_cfg (r : Request) (rest : List Request) (s : State) :
    (refuseIllegal r rest s).cfg = s.cfg := by
  unfold refuseIllegal; cases r.port <;> rfl
@[simp] theorem refuseIllegal_pending (r : Request) (rest : List Request) (s : State) :
    (refuseIllegal r rest s).pending = rest := by
  unfold refuseIllegal; cases r.port <;> rfl
@[simp] theorem refuseIllegal_fb (r : Request) (rest : List Request) (s : State) :
    (refuseIllegal r rest s).enc.fb = s.enc.fb := by
  unfold refuseIllegal; cases r.port <;> rfl
@[simp] theorem refuseIllegal_out (r : Request) (rest : List Request) (s : State) :
    (refuseIllegal r rest s).enc.out = s.enc.out := by
  unfold refuseIllegal; cases r.port <;> rfl
@[simp] theorem refuseIllegal_busy (r : Request) (rest : List Request) (s : State) :
    (refuseIllegal r rest s).enc.busy = s.enc.busy := by
  unfold refuseIllegal; cases r.port <;> rfl
@[simp] theorem refuseIllegal_trace (r : Request) (rest : List Request) (s : State) :
    (refuseIllegal r rest s).enc.trace = s.enc.trace := by
  unfold refuseIllegal; cases r.port <;> rfl
@[simp] theorem refuseIllegal_bs (r : Request) (rest : List Request) (s : State) :
    (refuseIllegal r rest s).db.bs = s.db.bs := by
  unfold refuseIllegal; cases r.port <;> rfl
@[simp] theorem refuseIllegal_poll (r : Request) (rest : List Request) (s : State) :
    (refuseIllegal r rest s).db.poll = s.db.poll := by
  unfold refuseIllegal; cases r.port <;> rfl
@[simp] theorem refuseIllegal_lock (r : Request) (rest : List Request) (s : State) :
    (refuseIllegal r rest s).db.lock = s.db.lock := by
  unfold refuseIllegal; cases r.port <;> rfl
@[simp] theorem refuseIllegal_dbTrace (r : Request) (rest : List Request) (s : State) :
    (refuseIllegal r rest s).db.trace = s.db.trace := by
  unfold refuseIllegal; cases r.port <;> rfl

@[simp] theorem awaitRequests_cfg (s : State) : (awaitRequests s).cfg = s.cfg := rfl
@[simp] theorem awaitRequests_enc (s : State) : (awaitRequests s).enc = s.enc := rfl
@[simp] theorem awaitRequests_db (s : State) : (awaitRequests s).db = s.db := rfl
@[simp] theorem awaitRequests_pending (s : State) :
    (awaitRequests s).pending = s.pending ++ Config.arrivals s.waits := rfl

/-! ### The ButtonState file and the output lines -/

@[simp] theorem ButtonFile.get_set (f : ButtonFile) (l l' : Line) (b : ButtonState) :
    (f.set l b).get l' = if l' = l then b else f.get l' := by
  cases l <;> cases l' <;> rfl

@[simp] theorem ButtonFile.get_fresh (l : Line) : ButtonFile.fresh.get l = ButtonState.fresh := by
  cases l <;> rfl

/-- Two files that agree at every line are equal. -/
theorem ButtonFile.ext_get {f g : ButtonFile} (h : ∀ l, f.get l = g.get l) : f = g := by
  obtain ⟨f0, f1, f2, f3, f4, f5, f6⟩ := f
  obtain ⟨g0, g1, g2, g3, g4, g5, g6⟩ := g
  have h0 := h .up
  have h1 := h .down
  have h2 := h .left
  have h3 := h .right
  have h4 := h .button1
  have h5 := h .button2
  have h6 := h .button3
  simp only [ButtonFile.get] at h0 h1 h2 h3 h4 h5 h6
  subst h0 h1 h2 h3 h4 h5 h6
  rfl

@[simp] theorem OutLines.get_set (o : OutLines) (l l' : OutLine) (v : OutLevel) :
    (o.set l v).get l' = if l' = l then v else o.get l' := by
  cases l <;> cases l' <;> rfl

@[simp] theorem Line.mem_all (l : Line) : l ∈ Line.all := by cases l <;> decide

theorem Line.nodup_all : Line.all.Nodup := by decide

end Sys2Proof.Machine
end

