-- ==== Sys2Proof/Laws/Display.lean ====
section
/-! SUPPORT. What performing primitives can do (41_encoder.md R120, R121), said once: `runPrims_cases` is the whole
story of a sequence of `Do`s, `runPrims_all_ok` and `runPrims_first_error` its two evaluations. -/

namespace Sys2Proof.Machine

/-! ### One primitive -/

/-- A primitive that draws an answer from the environment: every one but `Delay` (R12). -/
def Prim.fallible : Prim → Bool
  | .lineWrite _ _ => true
  | .busTx _ => true
  | .delay _ => false

@[simp] theorem drawAnswer_fb (e : Encoder) : (drawAnswer e).2.fb = e.fb := by unfold drawAnswer; split <;> rfl
@[simp] theorem drawAnswer_out (e : Encoder) : (drawAnswer e).2.out = e.out := by unfold drawAnswer; split <;> rfl
@[simp] theorem drawAnswer_busy (e : Encoder) : (drawAnswer e).2.busy = e.busy := by
  unfold drawAnswer; split <;> rfl
@[simp] theorem drawAnswer_k (e : Encoder) : (drawAnswer e).2.k = e.k := by unfold drawAnswer; split <;> rfl
@[simp] theorem drawAnswer_trace (e : Encoder) : (drawAnswer e).2.trace = e.trace := by
  unfold drawAnswer; split <;> rfl
@[simp] theorem drawAnswer_responses (e : Encoder) : (drawAnswer e).2.responses = e.responses := by
  unfold drawAnswer; split <;> rfl

@[simp] theorem primResult_fb (p : Prim) (e : Encoder) : (primResult p e).2.fb = e.fb := by
  cases p <;> simp [primResult]
@[simp] theorem primResult_out (p : Prim) (e : Encoder) : (primResult p e).2.out = e.out := by
  cases p <;> simp [primResult]
@[simp] theorem primResult_busy (p : Prim) (e : Encoder) : (primResult p e).2.busy = e.busy := by
  cases p <;> simp [primResult]
@[simp] theorem primResult_k (p : Prim) (e : Encoder) : (primResult p e).2.k = e.k := by
  cases p <;> simp [primResult]
@[simp] theorem primResult_trace (p : Prim) (e : Encoder) : (primResult p e).2.trace = e.trace := by
  cases p <;> simp [primResult]
@[simp] theorem primResult_responses (p : Prim) (e : Encoder) :
    (primResult p e).2.responses = e.responses := by
  cases p <;> simp [primResult]

@[simp] theorem doPrim_fb (p : Prim) (e : Encoder) : (doPrim p e).2.fb = e.fb := by simp [doPrim]
@[simp] theorem doPrim_busy (p : Prim) (e : Encoder) : (doPrim p e).2.busy = e.busy := by simp [doPrim]
@[simp] theorem doPrim_responses (p : Prim) (e : Encoder) : (doPrim p e).2.responses = e.responses := by
  simp [doPrim]
@[simp] theorem doPrim_k (p : Prim) (e : Encoder) : (doPrim p e).2.k = e.k + 1 := by simp [doPrim]
@[simp] theorem doPrim_trace (p : Prim) (e : Encoder) :
    (doPrim p e).2.trace = e.trace ++ [{ prim := p, result := (doPrim p e).1 }] := by simp [doPrim]
@[simp] theorem doPrim_out (p : Prim) (e : Encoder) :
    (doPrim p e).2.out = outAfter e.out p (doPrim p e).1 := by simp [doPrim]

/-! ### A sequence of primitives -/

@[simp] theorem outReplay_nil (o : OutLines) : outReplay o [] = o := rfl
@[simp] theorem outReplay_cons (o : OutLines) (ev : EncEvent) (tr : List EncEvent) :
    outReplay o (ev :: tr) = outReplay (outAfter o ev.prim ev.result) tr := rfl
theorem outReplay_append (o : OutLines) (a b : List EncEvent) :
    outReplay o (a ++ b) = outReplay (outReplay o a) b := by simp [outReplay]

theorem runPrims_cons_ok {p : Prim} {ps : List Prim} {e : Encoder} (h : (doPrim p e).1 = .ok) :
    runPrims (p :: ps) e = runPrims ps (doPrim p e).2 := by
  rcases hd : doPrim p e with ⟨r, e'⟩
  rw [hd] at h
  simp only at h
  subst h
  simp [runPrims, hd]

theorem runPrims_cons_err {p : Prim} {ps : List Prim} {e : Encoder} {x : Nat} (h : (doPrim p e).1 = .err x) :
    runPrims (p :: ps) e = (some (x, e.k), (doPrim p e).2) := by
  rcases hd : doPrim p e with ⟨r, e'⟩
  rw [hd] at h
  simp only at h
  subst h
  simp [runPrims, hd]

/-- The events a sequence of primitives leaves when it ends as `outcome` says, from index `k0`. -/
def EventsFor (ps : List Prim) (k0 : Nat) (outcome : Option (Nat × Nat)) (evs : List EncEvent) : Prop :=
  match outcome with
  | none => evs = ps.map .succeeded
  | some (x, k) => ∃ j p, ps[j]? = some p ∧ k = k0 + j ∧
      evs = (ps.take j).map .succeeded ++ [{ prim := p, result := .err x }]

/-- Everything a sequence of primitives can do: it appends its events, up to and with the first failing one, moves
the output lines as they say, counts them, and touches nothing else but the environment's answers. -/
theorem runPrims_cases (ps : List Prim) (e : Encoder) :
    ∃ evs, EventsFor ps e.k (runPrims ps e).1 evs ∧
      (runPrims ps e).2.trace = e.trace ++ evs ∧
      (runPrims ps e).2.out = outReplay e.out evs ∧
      (runPrims ps e).2.k = e.k + evs.length ∧
      (runPrims ps e).2.fb = e.fb ∧
      (runPrims ps e).2.busy = e.busy ∧
      (runPrims ps e).2.responses = e.responses := by
  induction ps generalizing e with
  | nil => exact ⟨[], rfl, by simp [runPrims]⟩
  | cons p ps ih =>
    cases hr : (doPrim p e).1 with
    | err x =>
      rw [runPrims_cons_err hr]
      refine ⟨[{ prim := p, result := .err x }], ⟨0, p, rfl, rfl, rfl⟩, ?_⟩
      simp [hr]
    | ok =>
      rw [runPrims_cons_ok hr]
      obtain ⟨evs, hev, htr, hout, hk, hfb, hb, hre⟩ := ih (doPrim p e).2
      refine ⟨.succeeded p :: evs, ?_, ?_, ?_, ?_, ?_, ?_, ?_⟩
      · cases ho : (runPrims ps (doPrim p e).2).1 with
        | none =>
          rw [ho] at hev
          simp only [EventsFor] at hev ⊢
          simp [hev]
        | some xk =>
          obtain ⟨x, k⟩ := xk
          rw [ho] at hev
          obtain ⟨j, q, hq, hkj, rfl⟩ := hev
          exact ⟨j + 1, q, hq, by simp at hkj; omega, by simp⟩
      · simp [htr, hr, EncEvent.succeeded]
      · simp [hout, hr, EncEvent.succeeded]
      · simp [hk]; omega
      · simp [hfb]
      · simp [hb]
      · simp [hre]

theorem drawAnswer_cons {e : Encoder} {r : IoResult} {rest : List IoResult} (h : e.answers = r :: rest) :
    drawAnswer e = (r, { e with answers := rest }) := by simp [drawAnswer, h]

/-- Performing a primitive whose answer is listed. -/
theorem doPrim_listed {p : Prim} {e : Encoder} {r : IoResult} {rest : List IoResult}
    (hp : p.fallible = true) (h : e.answers = r :: rest) :
    doPrim p e = (r, { e with answers := rest, trace := e.trace ++ [{ prim := p, result := r }], k := e.k + 1,
                              out := outAfter e.out p r }) := by
  cases p <;> simp_all [Prim.fallible, doPrim, primResult, drawAnswer]

/-- Performing a delay. -/
theorem doPrim_delay (d : Duration) (e : Encoder) :
    doPrim (.delay d) e = (.ok, { e with trace := e.trace ++ [.succeeded (.delay d)], k := e.k + 1 }) := rfl

/-- When the environment answers `ok` to every primitive, all are performed. -/
theorem runPrims_all_ok (ps : List Prim) (e : Encoder) (rest : List IoResult)
    (h : e.answers = List.replicate (ps.countP Prim.fallible) .ok ++ rest) :
    runPrims ps e = (none, { e with answers := rest, trace := e.trace ++ ps.map .succeeded, k := e.k + ps.length,
                                    out := outReplay e.out (ps.map .succeeded) }) := by
  induction ps generalizing e with
  | nil =>
    simp at h
    subst h
    simp [runPrims]
  | cons p ps ih =>
    by_cases hp : p.fallible = true
    · rw [List.countP_cons_of_pos hp, List.replicate_succ, List.cons_append] at h
      have hd := doPrim_listed hp h
      rw [runPrims_cons_ok (by rw [hd]), hd, ih _ rfl]
      simp [EncEvent.succeeded, Nat.add_comm, Nat.add_left_comm]
    · cases p with
      | delay d =>
        rw [List.countP_cons_of_neg hp] at h
        rw [runPrims_cons_ok (by rw [doPrim_delay]), doPrim_delay]
        simp only
        rw [ih { e with trace := e.trace ++ [.succeeded (.delay d)], k := e.k + 1 } h]
        simp [EncEvent.succeeded, outAfter, Nat.add_comm, Nat.add_left_comm]
      | lineWrite l lvl => simp [Prim.fallible] at hp
      | busTx b => simp [Prim.fallible] at hp

/-- When all primitives before index `j` are answered `ok` and that one is answered with an error, the sequence
stops there. -/
theorem runPrims_first_error (ps : List Prim) (e : Encoder) (rest : List IoResult) (j : Nat) (p : Prim) (x : Nat)
    (hj : ps[j]? = some p) (hp : p.fallible = true)
    (h : e.answers = List.replicate ((ps.take j).countP Prim.fallible) .ok ++ .err x :: rest) :
    runPrims ps e =
      (some (x, e.k + j),
       { e with answers := rest,
                trace := e.trace ++ ((ps.take j).map .succeeded ++ [{ prim := p, result := .err x }]),
                k := e.k + (j + 1),
                out := outReplay e.out ((ps.take j).map .succeeded ++ [{ prim := p, result := .err x }]) }) := by
  induction ps generalizing e j with
  | nil => simp at hj
  | cons q ps ih =>
    cases j with
    | zero =>
      simp at hj
      subst hj
      simp at h
      have hd := doPrim_listed hp h
      rw [runPrims_cons_err (by rw [hd]), hd]
      simp
    | succ j =>
      simp only [List.getElem?_cons_succ] at hj
      rw [List.take_succ_cons] at h
      by_cases hq : q.fallible = true
      · rw [List.countP_cons_of_pos hq, List.replicate_succ, List.cons_append] at h
        have hd := doPrim_listed hq h
        rw [runPrims_cons_ok (by rw [hd]), hd, ih _ j hj rfl]
        simp [EncEvent.succeeded, Nat.add_comm, Nat.add_left_comm]
      · cases q with
        | delay d =>
          rw [List.countP_cons_of_neg hq] at h
          rw [runPrims_cons_ok (by rw [doPrim_delay]), doPrim_delay]
          simp only
          rw [ih { e with trace := e.trace ++ [.succeeded (.delay d)], k := e.k + 1 } j hj h]
          simp [EncEvent.succeeded, outAfter, Nat.add_comm, Nat.add_left_comm]
        | lineWrite l lvl => simp [Prim.fallible] at hq
        | busTx b => simp [Prim.fallible] at hq

/-- What a sequence of primitives does depends, of the encoder, only on what it reads: the answers, and the free
draws once the answers run out. -/
theorem runPrims_same_answers (ps : List Prim) (e f : Encoder) (ha : e.answers = f.answers)
    (hd : e.draws = f.draws) (hk : e.k = f.k) :
    ∃ evs, (runPrims ps e).1 = (runPrims ps f).1 ∧
      (runPrims ps e).2.trace = e.trace ++ evs ∧ (runPrims ps f).2.trace = f.trace ++ evs ∧
      (runPrims ps e).2.answers = (runPrims ps f).2.answers ∧
      (runPrims ps e).2.draws = (runPrims ps f).2.draws := by
  induction ps generalizing e f with
  | nil => exact ⟨[], by simp [runPrims, ha, hd]⟩
  | cons p ps ih =>
    have hdraw : (drawAnswer e).1 = (drawAnswer f).1 ∧
        (drawAnswer e).2.answers = (drawAnswer f).2.answers ∧
        (drawAnswer e).2.draws = (drawAnswer f).2.draws := by
      unfold drawAnswer
      rw [← ha, ← hd]
      split <;> simp [ha, hd]
    have h1 : (doPrim p e).1 = (doPrim p f).1 := by
      cases p <;> simp [doPrim, primResult, hdraw]
    have h2 : (doPrim p e).2.answers = (doPrim p f).2.answers := by
      cases p <;> simp [doPrim, primResult, hdraw, ha]
    have h3 : (doPrim p e).2.draws = (doPrim p f).2.draws := by
      cases p <;> simp [doPrim, primResult, hdraw, hd]
    cases hr : (doPrim p e).1 with
    | err x =>
      rw [runPrims_cons_err hr, runPrims_cons_err (h1 ▸ hr)]
      exact ⟨[{ prim := p, result := .err x }], by simp [hk], by simp [hr], by simp [← h1, hr], h2, h3⟩
    | ok =>
      rw [runPrims_cons_ok hr, runPrims_cons_ok (h1 ▸ hr)]
      obtain ⟨evs, a, b, c, d, f'⟩ := ih (doPrim p e).2 (doPrim p f).2 h2 h3 (by simp [hk])
      exact ⟨{ prim := p, result := .ok } :: evs, a, by simp [b, hr], by simp [c, ← h1, hr], d, f'⟩

/-! ### An encoder operation -/

theorem runEncOp_eq (ps : List Prim) (s : State) :
    runEncOp ps s = respondEnc (replyOf (runPrims ps s.enc.begin).1)
      (s.withEnc (runPrims ps s.enc.begin).2) := rfl

@[simp] theorem runEncOp_cfg (ps : List Prim) (s : State) : (runEncOp ps s).cfg = s.cfg := rfl
@[simp] theorem runEncOp_db (ps : List Prim) (s : State) : (runEncOp ps s).db = s.db := rfl
@[simp] theorem runEncOp_pending (ps : List Prim) (s : State) : (runEncOp ps s).pending = s.pending := rfl
@[simp] theorem runEncOp_image (ps : List Prim) (s : State) : (runEncOp ps s).image = s.image := rfl
@[simp] theorem runEncOp_waits (ps : List Prim) (s : State) : (runEncOp ps s).waits = s.waits := rfl
@[simp] theorem runEncOp_busy (ps : List Prim) (s : State) : (runEncOp ps s).enc.busy = false := rfl

/-- Everything an encoder operation can do to the encoder: its events, from index 0, and one response. -/
theorem runEncOp_cases (ps : List Prim) (s : State) :
    ∃ evs outcome, EventsFor ps 0 outcome evs ∧
      (runEncOp ps s).enc.trace = s.enc.trace ++ evs ∧
      (runEncOp ps s).enc.out = outReplay s.enc.out evs ∧
      (runEncOp ps s).enc.k = evs.length ∧
      (runEncOp ps s).enc.fb = s.enc.fb ∧
      (runEncOp ps s).enc.responses = s.enc.responses ++ [replyOf outcome] := by
  obtain ⟨evs, h1, h2, h3, h4, h5, _, h7⟩ := runPrims_cases ps s.enc.begin
  refine ⟨evs, _, h1, h2, h3, by simp [runEncOp_eq, h4], h5, by simp [runEncOp_eq, h7]⟩

/-- An encoder operation when the environment answers `ok` throughout. -/
theorem runEncOp_all_ok (ps : List Prim) (s : State) (rest : List IoResult)
    (h : s.enc.answers = List.replicate (ps.countP Prim.fallible) .ok ++ rest) :
    runEncOp ps s =
      respondEnc .ok { s with enc := { s.enc with
        answers := rest, trace := s.enc.trace ++ ps.map .succeeded, busy := true, k := ps.length,
        out := outReplay s.enc.out (ps.map .succeeded) } } := by
  rw [runEncOp_eq, runPrims_all_ok ps s.enc.begin rest h]
  simp [replyOf, Encoder.begin, State.withEnc]

/-! ### Transactions on the bus -/

theorem busTransfers_append (o : OutLines) (a b : List EncEvent) :
    busTransfers o (a ++ b) = busTransfers o a ++ busTransfers (outReplay o a) b := by
  induction a generalizing o with
  | nil => rfl
  | cons ev a ih =>
    obtain ⟨p, r⟩ := ev
    cases p <;> simp [busTransfers, ih, outAfter]

/-- A successful transaction's one transfer, whatever the lines held before (R123). -/
theorem busTransfers_txn (o : OutLines) (m : TxnMode) (bytes : List Byte) :
    busTransfers o ((txn m bytes).map .succeeded) = [(.ofLevel m.level, .low, bytes)] := by
  simp [txn, busTransfers, EncEvent.succeeded, outAfter, OutLines.set, OutLevel.ofLevel]

/-- The output lines after a successful transaction (R121). -/
theorem outReplay_txn (o : OutLines) (m : TxnMode) (bytes : List Byte) :
    outReplay o ((txn m bytes).map .succeeded) = { o with dc := .ofLevel m.level, cs := .high } := by
  simp [txn, EncEvent.succeeded, outAfter, OutLines.set, OutLevel.ofLevel]

/-- The transfers of events that stop at an error are among those of the whole sequence. -/
theorem busTransfers_subset {ps : List Prim} {k0 : Nat} {outcome : Option (Nat × Nat)} {evs : List EncEvent}
    (h : EventsFor ps k0 outcome evs) (o : OutLines) :
    ∀ x ∈ busTransfers o evs, x ∈ busTransfers o (ps.map .succeeded) := by
  unfold EventsFor at h
  split at h
  · subst h; exact fun x hx => hx
  · obtain ⟨j, p, hj, _, rfl⟩ := h
    intro x hx
    have hsplit : ps = ps.take j ++ p :: ps.drop (j + 1) := by
      obtain ⟨hlt, hget⟩ := List.getElem?_eq_some_iff.1 hj
      rw [← hget, List.getElem_cons_drop, List.take_append_drop]
    rw [hsplit, List.map_append, List.map_cons, busTransfers_append]
    rw [busTransfers_append] at hx
    rcases List.mem_append.1 hx with hx | hx
    · exact List.mem_append_left _ (by simpa using hx)
    · refine List.mem_append_right _ ?_
      cases p with
      | busTx bytes =>
        simp only [busTransfers, EncEvent.succeeded, List.mem_cons, List.not_mem_nil, or_false] at hx ⊢
        exact Or.inl hx
      | lineWrite l lvl => simp [busTransfers] at hx
      | delay d => simp [busTransfers] at hx

/-! ### The pixel writes of a draw -/

theorem mem_intRange (lo hi z : Int) : z ∈ intRange lo hi ↔ lo ≤ z ∧ z < hi := by
  unfold intRange
  simp only [List.mem_map, List.mem_range]
  constructor
  · rintro ⟨n, hn, rfl⟩; omega
  · rintro ⟨h1, h2⟩; exact ⟨(z - lo).toNat, by omega, by omega⟩

/-- The overlap's list holds the pixels of the overlap (R144). -/
theorem mem_overlap (c : Params) (x0 y0 x1 y1 x y : Int) :
    (x, y) ∈ overlap c x0 y0 x1 y1 ↔ inOverlap c x0 y0 x1 y1 x y = true := by
  simp only [overlap, inOverlap, List.mem_flatMap, List.mem_map, mem_intRange, Prod.mk.injEq,
    Bool.and_eq_true, decide_eq_true_eq]
  constructor
  · rintro ⟨b, hb, a, ha, rfl, rfl⟩; exact ⟨⟨ha, hb.1⟩, hb.2⟩
  · rintro ⟨⟨hx, hy1⟩, hy2⟩; exact ⟨y, ⟨hy1, hy2⟩, x, hx, rfl, rfl⟩

theorem inB_of_inOverlap {c : Params} {x0 y0 x1 y1 x y : Int} (h : inOverlap c x0 y0 x1 y1 x y = true) :
    inB c x y = true := by
  simp only [inOverlap, Bool.and_eq_true, decide_eq_true_eq] at h
  rw [inB_iff]
  omega

/-- A fold of pixel writes keeps the canonical form and the address space. -/
theorem foldl_setPixel_inv (c : Params) (f : Int → Int → Bool) (ps : List (Int × Int)) (m : Memory)
    (h : Memory.wf m = true) :
    Memory.wf (ps.foldl (fun m p => setPixel c m p.1 p.2 (f p.1 p.2)) m) = true ∧
      (c.height % 8 = 0 → Memory.within c.bytes m = true →
        Memory.within c.bytes (ps.foldl (fun m p => setPixel c m p.1 p.2 (f p.1 p.2)) m) = true) := by
  induction ps generalizing m with
  | nil => exact ⟨h, fun _ h => h⟩
  | cons p ps ih =>
    obtain ⟨h1, h2⟩ := ih _ (wf_setPixel c p.1 p.2 (f p.1 p.2) h)
    exact ⟨h1, fun hh hw => h2 hh (within_setPixel _ _ _ hh hw)⟩

/-- A fold of pixel writes with values that depend on the pixel only. -/
theorem getPixel_foldl (c : Params) (f : Int → Int → Bool) (ps : List (Int × Int)) (m : Memory) {x y : Int}
    (h : Memory.wf m = true) (hin : inB c x y = true) :
    getPixel c (ps.foldl (fun m p => setPixel c m p.1 p.2 (f p.1 p.2)) m) x y =
      if (x, y) ∈ ps then f x y else getPixel c m x y := by
  induction ps generalizing m with
  | nil => simp
  | cons p ps ih =>
    obtain ⟨a, b⟩ := p
    rw [List.foldl_cons, ih _ (wf_setPixel c _ _ _ h), getPixel_setPixel _ _ _ h hin]
    by_cases hmem : (x, y) ∈ ps
    · simp [hmem]
    · by_cases hab : x = a ∧ y = b
      · obtain ⟨rfl, rfl⟩ := hab
        simp [hin]
      · have : (x, y) ∉ (a, b) :: ps := by simp [hmem, hab]
        simp [hmem, hab]

/-- Bytes no pixel of which is written read as before. -/
theorem read_foldl_setPixel (c : Params) (f : Int → Int → Bool) (ps : List (Int × Int)) (m : Memory) (i : Nat)
    (h : Memory.wf m = true) (hi : ∀ p ∈ ps, inB c p.1 p.2 = true → pixelIndex c p.1 p.2 ≠ i) :
    Memory.read (ps.foldl (fun m p => setPixel c m p.1 p.2 (f p.1 p.2)) m) i = Memory.read m i := by
  induction ps generalizing m with
  | nil => rfl
  | cons p ps ih =>
    rw [List.foldl_cons, ih _ (wf_setPixel c _ _ _ h) (fun q hq => hi q (List.mem_cons_of_mem _ hq)),
      read_setPixel _ _ _ _ _ h]
    have := hi p (by simp)
    rw [if_neg]
    rintro ⟨h1, rfl⟩
    exact this h1 rfl

/-- The drawn framebuffer, pixel by pixel (R145). -/
theorem getPixel_drawInto (c : Params) (img : SourceImage) (m : Memory) (x0 y0 x1 y1 sx sy : Int) {x y : Int}
    (h : Memory.wf m = true) (hin : inB c x y = true) :
    getPixel c (drawInto c img m x0 y0 x1 y1 sx sy) x y =
      if inOverlap c x0 y0 x1 y1 x y = true then drawnOn c img x0 y0 sx sy x y else getPixel c m x y := by
  unfold drawInto
  rw [getPixel_foldl c (drawnOn c img x0 y0 sx sy) _ m h hin]
  simp only [mem_overlap]

theorem drawInto_inv (c : Params) (img : SourceImage) (m : Memory) (x0 y0 x1 y1 sx sy : Int)
    (h : Memory.wf m = true) :
    Memory.wf (drawInto c img m x0 y0 x1 y1 sx sy) = true ∧
      (c.height % 8 = 0 → Memory.within c.bytes m = true →
        Memory.within c.bytes (drawInto c img m x0 y0 x1 y1 sx sy) = true) :=
  foldl_setPixel_inv c (drawnOn c img x0 y0 sx sy) _ m h

end Sys2Proof.Machine
end

