-- ==== Sys2Proof/Laws/Duration.lean ====
section
/-! SUPPORT. What a duration stands for (00_scope.md R7, R8): one real number, above zero exactly when the validity test
says so. -/

namespace Sys2Proof

/-- A duration stands for a real number. -/
theorem Duration.exists_value (d : Duration) : ∃ x, d.IsValue x := by
  cases d <;> exact ⟨_, rfl⟩

/-- A duration stands for one real number only. -/
theorem Duration.IsValue.unique {d : Duration} {x y : ℝ} (hx : d.IsValue x) (hy : d.IsValue y) : x = y := by
  cases d <;> exact Eq.trans hx (Eq.symm hy)

/-- The test of R9 for a positive duration is the comparison of the real number. -/
theorem Duration.isPositive_iff {d : Duration} {x : ℝ} (h : d.IsValue x) : d.isPositive = true ↔ 0 < x := by
  cases d <;> simp_all [Duration.IsValue, Duration.isPositive, Real.exp_pos]

/-- The test of R9 for a duration that may be zero is the comparison of the real number. -/
theorem Duration.isNonneg_iff {d : Duration} {x : ℝ} (h : d.IsValue x) : d.isNonneg = true ↔ 0 ≤ x := by
  cases d <;> simp_all [Duration.IsValue, Duration.isNonneg, Real.exp_nonneg]

/-- The durations of a valid configuration are reals above zero, the last delay zero or above (R9, R227). -/
theorem Params.Valid.durations {c : Params} (h : c.Valid) :
    ∃ d1 d2 d3 u : ℝ, c.rstD1.IsValue d1 ∧ c.rstD2.IsValue d2 ∧ c.rstD3.IsValue d3 ∧ c.timeUnit.IsValue u ∧
      0 < d1 ∧ 0 < d2 ∧ 0 ≤ d3 ∧ 0 < u := by
  obtain ⟨-, -, ⟨-, h1, h2, h3, h4, -⟩, -⟩ := h
  obtain ⟨d1, v1⟩ := c.rstD1.exists_value
  obtain ⟨d2, v2⟩ := c.rstD2.exists_value
  obtain ⟨d3, v3⟩ := c.rstD3.exists_value
  obtain ⟨u, v4⟩ := c.timeUnit.exists_value
  exact ⟨d1, d2, d3, u, v1, v2, v3, v4, (Duration.isPositive_iff v1).1 h1, (Duration.isPositive_iff v2).1 h2,
    (Duration.isNonneg_iff v3).1 h3, (Duration.isPositive_iff v4).1 h4⟩

end Sys2Proof
end

