-- ==== Sys2Proof/Laws/PerInstr.lean ====
section
/-! SUPPORT. One family of statements for all instructions: word 0 of an instruction carries its opcode in bits
`[63:56]` and zeros in the reserved bits of its format (30_encoding.md R71, R73, R81). -/

namespace Sys2Proof.Laws.Opcode

/-- Word 0 of the instruction has its opcode, and no reserved bit is set. -/
def Statement (i : Instr) : Prop :=
  opcodeOf (encodeWord0 i) = i.op.byte ∧ encodeWord0 i &&& i.op.format.reserved = 0#64

/-- The first reserved bit of a format; the reserved bits end at bit 55 (R73). -/
def firstReserved : Format → Nat
  | .n => 0
  | .b => 1
  | .p => 25
  | .q => 24
  | .r2 => 48
  | .t => 48

theorem getLsbD_reserved (f : Format) (j : Nat) (hj : j < 64) :
    f.reserved.getLsbD j = (decide (firstReserved f ≤ j) && decide (j < 56)) := by
  have h : ∀ j : Fin 64, f.reserved.getLsbD j.val = (decide (firstReserved f ≤ j.val) && decide (j.val < 56)) := by
    cases f <;> decide
  exact h ⟨j, hj⟩

/-- No bit of a word is set where a format reserves it, if the word is zero between the format's first reserved bit
and bit 55. -/
theorem and_reserved {w : Word} {f : Format} (h : ∀ j, firstReserved f ≤ j → j < 56 → w.getLsbD j = false) :
    w &&& f.reserved = 0#64 := by
  apply BitVec.eq_of_getLsbD_eq
  intro j hj
  rw [BitVec.getLsbD_and, getLsbD_reserved f j hj, BitVec.getLsbD_zero]
  by_cases hr : firstReserved f ≤ j ∧ j < 56
  · rw [h j hr.1 hr.2, Bool.false_and]
  · have : (decide (firstReserved f ≤ j) && decide (j < 56)) = false := by
      simpa [Classical.not_and_iff_not_or_not] using hr
    rw [this, Bool.and_false]

/-- The opcode of a word, bit by bit. -/
theorem opcodeOf_eq {w : Word} {b : Byte} (h : ∀ j, j < 8 → w.getLsbD (56 + j) = b.getLsbD j) :
    opcodeOf w = b := by
  apply BitVec.eq_of_getLsbD_eq
  intro j hj
  rw [opcodeOf, BitVec.getLsbD_extractLsb', h j hj]
  simp [hj]

/-! ### The packings, one spec lemma each -/

theorem opcodeOf_packN (op : Byte) : opcodeOf (packN op) = op := by
  refine opcodeOf_eq fun j hj => ?_
  unfold packN
  simp only [BitVec.getLsbD_append]
  repeat rw [if_neg (by omega)]
  congr 1
  omega

theorem packN_reserved (op : Byte) : packN op &&& Format.n.reserved = 0#64 := by
  refine and_reserved fun j _ h2 => ?_
  unfold packN
  simp only [BitVec.getLsbD_append]
  rw [if_pos (by omega), BitVec.getLsbD_zero]

theorem opcodeOf_packB (op : Byte) (v : Bool) : opcodeOf (packB op v) = op := by
  refine opcodeOf_eq fun j hj => ?_
  unfold packB
  simp only [BitVec.getLsbD_append]
  repeat rw [if_neg (by omega)]
  congr 1
  omega

theorem packB_reserved (op : Byte) (v : Bool) : packB op v &&& Format.b.reserved = 0#64 := by
  refine and_reserved fun j h1 h2 => ?_
  simp only [firstReserved] at h1
  unfold packB
  simp only [BitVec.getLsbD_append]
  repeat rw [if_neg (by omega)]
  rw [if_pos (by omega), BitVec.getLsbD_zero]

theorem opcodeOf_packP (op : Byte) (on : Bool) (xf yf : BitVec 12) : opcodeOf (packP op on xf yf) = op := by
  refine opcodeOf_eq fun j hj => ?_
  unfold packP
  simp only [BitVec.getLsbD_append]
  repeat rw [if_neg (by omega)]
  congr 1
  omega

theorem packP_reserved (op : Byte) (on : Bool) (xf yf : BitVec 12) : packP op on xf yf &&& Format.p.reserved = 0#64 := by
  refine and_reserved fun j h1 h2 => ?_
  simp only [firstReserved] at h1
  unfold packP
  simp only [BitVec.getLsbD_append]
  repeat rw [if_neg (by omega)]
  rw [if_pos (by omega), BitVec.getLsbD_zero]

theorem opcodeOf_packQ (op : Byte) (xf yf : BitVec 12) : opcodeOf (packQ op xf yf) = op := by
  refine opcodeOf_eq fun j hj => ?_
  unfold packQ
  simp only [BitVec.getLsbD_append]
  repeat rw [if_neg (by omega)]
  congr 1
  omega

theorem packQ_reserved (op : Byte) (xf yf : BitVec 12) : packQ op xf yf &&& Format.q.reserved = 0#64 := by
  refine and_reserved fun j h1 h2 => ?_
  simp only [firstReserved] at h1
  unfold packQ
  simp only [BitVec.getLsbD_append]
  repeat rw [if_neg (by omega)]
  rw [if_pos (by omega), BitVec.getLsbD_zero]

theorem opcodeOf_packR2 (op : Byte) (x0f y0f x1f y1f : BitVec 12) : opcodeOf (packR2 op x0f y0f x1f y1f) = op := by
  refine opcodeOf_eq fun j hj => ?_
  unfold packR2
  simp only [BitVec.getLsbD_append]
  repeat rw [if_neg (by omega)]
  congr 1
  omega

theorem packR2_reserved (op : Byte) (x0f y0f x1f y1f : BitVec 12) : packR2 op x0f y0f x1f y1f &&& Format.r2.reserved = 0#64 := by
  refine and_reserved fun j h1 h2 => ?_
  simp only [firstReserved] at h1
  unfold packR2
  simp only [BitVec.getLsbD_append]
  repeat rw [if_neg (by omega)]
  rw [if_pos (by omega), BitVec.getLsbD_zero]

theorem opcodeOf_packT (op : Byte) (tf : BitVec 48) : opcodeOf (packT op tf) = op := by
  refine opcodeOf_eq fun j hj => ?_
  unfold packT
  simp only [BitVec.getLsbD_append]
  repeat rw [if_neg (by omega)]
  congr 1
  omega

theorem packT_reserved (op : Byte) (tf : BitVec 48) : packT op tf &&& Format.t.reserved = 0#64 := by
  refine and_reserved fun j h1 h2 => ?_
  simp only [firstReserved] at h1
  unfold packT
  simp only [BitVec.getLsbD_append]
  repeat rw [if_neg (by omega)]
  rw [if_pos (by omega), BitVec.getLsbD_zero]

/-! ### The instructions -/

theorem fbClear (on : Bool) : Statement (.fbClear on) := ⟨opcodeOf_packB _ _, packB_reserved _ _⟩

theorem fbSet (x y : Int) (on : Bool) : Statement (.fbSet x y on) := ⟨opcodeOf_packP _ _ _ _, packP_reserved _ _ _ _⟩

theorem fbGet (x y : Int) : Statement (.fbGet x y) := ⟨opcodeOf_packQ _ _ _, packQ_reserved _ _ _⟩

theorem fbBounds : Statement .fbBounds := ⟨opcodeOf_packN _, packN_reserved _⟩

theorem encInit : Statement .encInit := ⟨opcodeOf_packN _, packN_reserved _⟩

theorem encUpdate : Statement .encUpdate := ⟨opcodeOf_packN _, packN_reserved _⟩

theorem encDrawImage (x0 y0 x1 y1 sx sy : Int) : Statement (.encDrawImage x0 y0 x1 y1 sx sy) := ⟨opcodeOf_packR2 _ _ _ _ _, packR2_reserved _ _ _ _ _⟩

theorem encPowerOff : Statement .encPowerOff := ⟨opcodeOf_packN _, packN_reserved _⟩

theorem dbTick (now : Nat) : Statement (.dbTick now) := ⟨opcodeOf_packT _ _, packT_reserved _ _⟩

theorem dbStart : Statement .dbStart := ⟨opcodeOf_packN _, packN_reserved _⟩

theorem dbStop : Statement .dbStop := ⟨opcodeOf_packN _, packN_reserved _⟩

theorem dbSetPoll (p : Nat) : Statement (.dbSetPoll p) := ⟨opcodeOf_packT _ _, packT_reserved _ _⟩

end Sys2Proof.Laws.Opcode
end

