-- ==== Sys2Proof/Laws/Encoding.lean ====
section
/-! SUPPORT. The fields of a packed word and the word packed again from its fields (30_encoding.md R73 to R76), the
opcode map's match against opcode and reserved bits (R78, R81), and the numeric value of a response word (R79, R80). -/

namespace Sys2Proof.Laws.Encoding

open Sys2Proof.Laws.Opcode

/-! ### Operand fields -/

theorem ofByte_byte (o : Op) : Op.ofByte o.byte = some o := by cases o <;> decide

theorem byte_of_ofByte {b : Byte} {o : Op} (h : Op.ofByte b = some o) : o.byte = b := by
  unfold Op.ofByte at h
  simpa using List.find?_some h

theorem toInt_encodeCoord {x : Int} (h : coordFits x = true) : (encodeCoord x).toInt = x := by
  simp [coordFits] at h
  unfold encodeCoord
  rw [BitVec.toInt_ofInt, Int.bmod_eq_of_le] <;> norm_num <;> omega

theorem encodeCoord_toInt (f : BitVec 12) : encodeCoord f.toInt = f := by
  unfold encodeCoord; simp

theorem coordFits_toInt (f : BitVec 12) : coordFits f.toInt = true := by
  have := @BitVec.toInt_lt 12 f
  have := @BitVec.le_toInt 12 f
  simp [coordFits]; norm_num at *; omega

theorem toNat_encodeTime {t : Nat} (h : timeFits t = true) : (encodeTime t).toNat = t := by
  simp [timeFits] at h
  simp [encodeTime]; omega

theorem encodeTime_toNat (f : BitVec 48) : encodeTime f.toNat = f := by simp [encodeTime]

theorem timeFits_toNat (f : BitVec 48) : timeFits f.toNat = true := by
  have := f.isLt
  simp only [timeFits, decide_eq_true_eq]; exact this

/-! ### Reading a field of a packed word -/

theorem extractLsb_eq {w : Word} {lo n : Nat} {f : BitVec n} (h : ∀ j, j < n → w.getLsbD (lo + j) = f.getLsbD j) :
    w.extractLsb' lo n = f := by
  apply BitVec.eq_of_getLsbD_eq
  intro j hj
  rw [BitVec.getLsbD_extractLsb', h j hj]; simp [hj]

theorem packP_yf (op : Byte) (on : Bool) (xf yf : BitVec 12) : (packP op on xf yf).extractLsb' 0 12 = yf := by
  refine extractLsb_eq fun j hj => ?_
  unfold packP
  simp only [BitVec.getLsbD_append]
  rw [if_pos (by omega)]
  congr 1
  omega

theorem packP_xf (op : Byte) (on : Bool) (xf yf : BitVec 12) : (packP op on xf yf).extractLsb' 12 12 = xf := by
  refine extractLsb_eq fun j hj => ?_
  unfold packP
  simp only [BitVec.getLsbD_append]
  rw [if_neg (by omega), if_pos (by omega)]
  congr 1
  omega

theorem packP_on (op : Byte) (on : Bool) (xf yf : BitVec 12) : (packP op on xf yf).getLsbD 24 = on := by
  unfold packP
  simp only [BitVec.getLsbD_append]
  rw [if_neg (by omega), if_neg (by omega), if_pos (by omega)]; simp

theorem packQ_yf (op : Byte) (xf yf : BitVec 12) : (packQ op xf yf).extractLsb' 0 12 = yf := by
  refine extractLsb_eq fun j hj => ?_
  unfold packQ
  simp only [BitVec.getLsbD_append]
  rw [if_pos (by omega)]
  congr 1
  omega

theorem packQ_xf (op : Byte) (xf yf : BitVec 12) : (packQ op xf yf).extractLsb' 12 12 = xf := by
  refine extractLsb_eq fun j hj => ?_
  unfold packQ
  simp only [BitVec.getLsbD_append]
  rw [if_neg (by omega), if_pos (by omega)]
  congr 1
  omega

theorem packR2_y1f (op : Byte) (a b c d : BitVec 12) : (packR2 op a b c d).extractLsb' 0 12 = d := by
  refine extractLsb_eq fun j hj => ?_
  unfold packR2
  simp only [BitVec.getLsbD_append]
  rw [if_pos (by omega)]
  congr 1
  omega

theorem packR2_x1f (op : Byte) (a b c d : BitVec 12) : (packR2 op a b c d).extractLsb' 12 12 = c := by
  refine extractLsb_eq fun j hj => ?_
  unfold packR2
  simp only [BitVec.getLsbD_append]
  rw [if_neg (by omega), if_pos (by omega)]
  congr 1
  omega

theorem packR2_y0f (op : Byte) (a b c d : BitVec 12) : (packR2 op a b c d).extractLsb' 24 12 = b := by
  refine extractLsb_eq fun j hj => ?_
  unfold packR2
  simp only [BitVec.getLsbD_append]
  rw [if_neg (by omega), if_neg (by omega), if_pos (by omega)]
  congr 1
  omega

theorem packR2_x0f (op : Byte) (a b c d : BitVec 12) : (packR2 op a b c d).extractLsb' 36 12 = a := by
  refine extractLsb_eq fun j hj => ?_
  unfold packR2
  simp only [BitVec.getLsbD_append]
  rw [if_neg (by omega), if_neg (by omega), if_neg (by omega), if_pos (by omega)]
  congr 1
  omega

theorem packT_tf (op : Byte) (t : BitVec 48) : (packT op t).extractLsb' 0 48 = t := by
  refine extractLsb_eq fun j hj => ?_
  unfold packT
  simp only [BitVec.getLsbD_append]
  rw [if_pos (by omega)]
  congr 1
  omega

theorem packB_v (op : Byte) (v : Bool) : (packB op v).getLsbD 0 = v := by
  unfold packB; simp only [BitVec.getLsbD_append]; simp

theorem secondWordMatches_packQ (xf yf : BitVec 12) : secondWordMatches (packQ 0xFF#8 xf yf) = true := by
  unfold secondWordMatches
  rw [beq_iff_eq]
  apply BitVec.eq_of_getLsbD_eq
  intro j hj
  rw [BitVec.getLsbD_and]
  have hm : ∀ j : Fin 64, (0xFFFFFFFFFF000000#64).getLsbD j.val = decide (24 ≤ j.val) := by decide
  have hp : ∀ j : Fin 64, (0xFF00000000000000#64).getLsbD j.val = decide (56 ≤ j.val) := by decide
  have h1 := hm ⟨j, hj⟩; have h2 := hp ⟨j, hj⟩
  simp only at h1 h2
  rw [h1, h2]
  by_cases h : 24 ≤ j
  · unfold packQ
    simp only [BitVec.getLsbD_append, h, decide_true, Bool.and_true]
    rw [if_neg (by omega), if_neg (by omega)]
    by_cases h' : 56 ≤ j
    · rw [if_neg (by omega)]
      have : ∀ i : Fin 8, (0xFF#8).getLsbD i.val = true := by decide
      have := this ⟨j - 12 - 12 - 32, by omega⟩
      simpa [h'] using this
    · rw [if_pos (by omega)]; simp; omega
  · simp [h]; omega

/-! ### A word is the packing of its fields -/

theorem getLsbD_of_reserved {w : Word} {f : Format} (h : w &&& f.reserved = 0#64) (j : Nat)
    (h1 : firstReserved f ≤ j) (h2 : j < 56) :
    w.getLsbD j = false := by
  have := congrArg (fun v => v.getLsbD j) h
  simp only [BitVec.getLsbD_and, getLsbD_reserved f j (by omega), BitVec.getLsbD_zero] at this
  simpa [h1, h2] using this

theorem getLsbD_of_opcode {w : Word} {b : Byte} (h : b = opcodeOf w) (j : Nat) (hj : j < 8) :
    b.getLsbD j = w.getLsbD (56 + j) := by
  subst h; simp [opcodeOf, hj]

theorem packN_fields {w : Word} {b : Byte} (hb : b = opcodeOf w) (hr : w &&& Format.n.reserved = 0#64) :
    packN b = w := by
  apply BitVec.eq_of_getLsbD_eq
  intro j hj
  unfold packN; simp only [BitVec.getLsbD_append]
  split
  · rw [getLsbD_of_reserved hr j (by simp [firstReserved]) (by omega)]; simp
  · rw [getLsbD_of_opcode hb _ (by omega)]; congr 1; omega

theorem packB_fields {w : Word} {b : Byte} (hb : b = opcodeOf w) (hr : w &&& Format.b.reserved = 0#64) :
    packB b (w.getLsbD 0) = w := by
  apply BitVec.eq_of_getLsbD_eq
  intro j hj
  unfold packB; simp only [BitVec.getLsbD_append]
  split
  · have : j = 0 := by omega
    subst this; simp
  · split
    · rw [getLsbD_of_reserved hr j (by simp [firstReserved]; omega) (by omega)]; simp
    · rw [getLsbD_of_opcode hb _ (by omega)]; congr 1; omega

theorem packP_fields {w : Word} {b : Byte} (hb : b = opcodeOf w) (hr : w &&& Format.p.reserved = 0#64) :
    packP b (w.getLsbD 24) (w.extractLsb' 12 12) (w.extractLsb' 0 12) = w := by
  apply BitVec.eq_of_getLsbD_eq
  intro j hj
  unfold packP; simp only [BitVec.getLsbD_append, BitVec.getLsbD_extractLsb']
  split
  · next h => simp [h]
  · split
    · next h => rw [decide_eq_true h, Bool.true_and]; congr 1; omega
    · split
      · have : j = 24 := by omega
        subst this; simp
      · split
        · rw [getLsbD_of_reserved hr j (by simp [firstReserved]; omega) (by omega)]; simp
        · rw [getLsbD_of_opcode hb _ (by omega)]; congr 1; omega

theorem packQ_fields {w : Word} {b : Byte} (hb : b = opcodeOf w) (hr : w &&& Format.q.reserved = 0#64) :
    packQ b (w.extractLsb' 12 12) (w.extractLsb' 0 12) = w := by
  apply BitVec.eq_of_getLsbD_eq
  intro j hj
  unfold packQ; simp only [BitVec.getLsbD_append, BitVec.getLsbD_extractLsb']
  split
  · next h => simp [h]
  · split
    · next h => rw [decide_eq_true h, Bool.true_and]; congr 1; omega
    · split
      · rw [getLsbD_of_reserved hr j (by simp [firstReserved]; omega) (by omega)]; simp
      · rw [getLsbD_of_opcode hb _ (by omega)]; congr 1; omega

theorem packR2_fields {w : Word} {b : Byte} (hb : b = opcodeOf w) (hr : w &&& Format.r2.reserved = 0#64) :
    packR2 b (w.extractLsb' 36 12) (w.extractLsb' 24 12) (w.extractLsb' 12 12) (w.extractLsb' 0 12) = w := by
  apply BitVec.eq_of_getLsbD_eq
  intro j hj
  unfold packR2; simp only [BitVec.getLsbD_append, BitVec.getLsbD_extractLsb']
  split
  · next h => simp [h]
  split
  · next h => rw [decide_eq_true h, Bool.true_and]; congr 1; omega
  split
  · next h => rw [decide_eq_true h, Bool.true_and]; congr 1; omega
  split
  · next h => rw [decide_eq_true h, Bool.true_and]; congr 1; omega
  split
  · rw [getLsbD_of_reserved hr j (by simp [firstReserved]; omega) (by omega)]; simp
  · rw [getLsbD_of_opcode hb _ (by omega)]; congr 1; omega

theorem packT_fields {w : Word} {b : Byte} (hb : b = opcodeOf w) (hr : w &&& Format.t.reserved = 0#64) :
    packT b (w.extractLsb' 0 48) = w := by
  apply BitVec.eq_of_getLsbD_eq
  intro j hj
  unfold packT; simp only [BitVec.getLsbD_append, BitVec.getLsbD_extractLsb']
  split
  · next h => simp [h]
  split
  · rw [getLsbD_of_reserved hr j (by simp [firstReserved]; omega) (by omega)]; simp
  · rw [getLsbD_of_opcode hb _ (by omega)]; congr 1; omega

theorem packQ_second_word {w : Word} (h : secondWordMatches w = true) :
    packQ 0xFF#8 (w.extractLsb' 12 12) (w.extractLsb' 0 12) = w := by
  unfold secondWordMatches at h
  rw [beq_iff_eq] at h
  have hbit : ∀ j, 24 ≤ j → j < 64 → w.getLsbD j = decide (56 ≤ j) := by
    intro j h1 h2
    have := congrArg (fun v => v.getLsbD j) h
    have hm : ∀ j : Fin 64, (0xFFFFFFFFFF000000#64).getLsbD j.val = decide (24 ≤ j.val) := by decide
    have hp : ∀ j : Fin 64, (0xFF00000000000000#64).getLsbD j.val = decide (56 ≤ j.val) := by decide
    have h3 := hm ⟨j, h2⟩; have h4 := hp ⟨j, h2⟩
    simp only at h3 h4
    simp only [BitVec.getLsbD_and, h3, h4] at this
    simpa [h1] using this
  apply packQ_fields
  · apply BitVec.eq_of_getLsbD_eq
    intro j hj
    have : ∀ i : Fin 8, (0xFF#8).getLsbD i.val = true := by decide
    rw [this ⟨j, hj⟩]
    simp [opcodeOf, hj, hbit (56+j) (by omega) (by omega)]
  · refine and_reserved fun j h1 h2 => ?_
    simp only [firstReserved] at h1
    rw [hbit j h1 (by omega)]; simp; omega

/-! ### Decoding, in two halves -/

theorem decodeOn_ok {port w0 w1 i} (h : decodeOn port w0 w1 = .ok i) : decode w0 w1 = .ok i ∧ i.op.port = port := by
  unfold decodeOn at h
  split at h
  · simp at h
  · next j hj =>
    split at h
    · next hp => simp only [Except.ok.injEq] at h; subst h; exact ⟨hj, hp⟩
    · simp at h

theorem decode_ok {w0 w1 : Word} {i : Instr} (h : decode w0 w1 = .ok i) :
    ∃ o, o.byte = opcodeOf w0 ∧ w0 &&& o.format.reserved = 0#64 ∧ operandsOf w0 w1 o = .ok i := by
  unfold decode at h
  split at h
  · simp at h
  · next o ho =>
    split at h
    · next hr => exact ⟨o, byte_of_ofByte ho, hr, h⟩
    · simp at h

theorem op_of_operandsOf {w0 w1 : Word} {o : Op} {i : Instr} (h : operandsOf w0 w1 o = .ok i) : i.op = o := by
  cases o <;> simp only [operandsOf] at h <;> try (simp only [Except.ok.injEq] at h; subst h; rfl)
  · split at h
    · simp only [Except.ok.injEq] at h; subst h; rfl
    · simp at h
  · split at h
    · simp at h
    · simp only [Except.ok.injEq] at h; subst h; rfl

/-! ### Match and mask -/

theorem match_iff_opcode_and_reserved (w : Word) (o : Op) :
    w &&& o.mask0 = o.match0 ↔ o.byte = opcodeOf w ∧ w &&& o.format.reserved = 0#64 := by
  have htop : ∀ j : Fin 64, (0xFF00000000000000#64).getLsbD j.val = decide (56 ≤ j.val) := by decide
  have hm : ∀ j, j < 64 → o.mask0.getLsbD j =
      (decide (56 ≤ j) || (decide (firstReserved o.format ≤ j) && decide (j < 56))) := by
    intro j hj
    rw [Op.mask0, BitVec.getLsbD_or, getLsbD_reserved _ _ hj]
    have := htop ⟨j, hj⟩; simp only at this; rw [this]
  have hp : ∀ j, o.match0.getLsbD j = if j < 56 then false else o.byte.getLsbD (j - 56) := by
    intro j; rw [Op.match0, BitVec.getLsbD_append]; simp
  constructor
  · intro h
    have hb : ∀ j, (w.getLsbD j && o.mask0.getLsbD j) = o.match0.getLsbD j := fun j => by
      rw [← BitVec.getLsbD_and, h]
    constructor
    · symm
      refine opcodeOf_eq fun j hj => ?_
      have := hb (56 + j)
      rw [hm _ (by omega), hp] at this
      simpa using this
    · refine and_reserved fun j h1 h2 => ?_
      have := hb j
      rw [hm _ (by omega), hp] at this
      simpa [h1, h2] using this
  · rintro ⟨h1, h2⟩
    apply BitVec.eq_of_getLsbD_eq
    intro j hj
    rw [BitVec.getLsbD_and, hm j hj, hp]
    by_cases h : j < 56
    · by_cases hr : firstReserved o.format ≤ j
      · simp [h, hr, getLsbD_of_reserved h2 j hr h]
      · have : ¬ 56 ≤ j := by omega
        simp [h, hr, this]
    · have : 56 ≤ j := by omega
      simp [h, this]
      rw [getLsbD_of_opcode h1 _ (by omega)]; congr 1; omega

theorem time_mask_zero_iff (w : Word) : (w &&& 0x0000FFFFFFFFFFFF#64 = 0#64) ↔ timeField w = 0 := by
  have hm : ∀ j : Fin 64, (0x0000FFFFFFFFFFFF#64).getLsbD j.val = decide (j.val < 48) := by decide
  unfold timeField
  rw [show (w.extractLsb' 0 48).toNat = 0 ↔ w.extractLsb' 0 48 = 0#48 by
    rw [← BitVec.toNat_inj]; simp]
  constructor
  · intro h
    refine extractLsb_eq fun j hj => ?_
    have := congrArg (fun v => v.getLsbD j) h
    have h1 := hm ⟨j, by omega⟩; simp only at h1
    simp only [BitVec.getLsbD_and, h1] at this
    simpa [hj] using this
  · intro h
    apply BitVec.eq_of_getLsbD_eq
    intro j hj
    have h1 := hm ⟨j, hj⟩; simp only at h1
    rw [BitVec.getLsbD_and, h1]
    by_cases h48 : j < 48
    · have := congrArg (fun v => v.getLsbD j) h
      simp [h48] at this
      simp [h48, this]
    · simp [h48]

theorem ownerPort_byte (i : Instr) : ownerPort i.op.byte = i.op.port := by cases i <;> rfl

/-- A word in the host's numbering that decodes is presented as the request that names the same operation. -/
theorem decodeRequest_tableRequest {nbits w : Nat} {i : Instr} (h : decodeTableWord nbits w = some i) :
    Machine.decodeRequest (Machine.tableRequest nbits w) = .ok i := by
  unfold decodeTableWord at h
  cases hd : decode (tableWord nbits w 0) (tableWord nbits w 1) with
  | error e => rw [hd] at h; simp [Except.toOption] at h
  | ok j =>
    rw [hd] at h
    simp only [Except.toOption, Option.some.injEq] at h
    subst h
    obtain ⟨o, hb, _, ho⟩ := decode_ok hd
    have hport : j.op.port = ownerPort (opcodeOf (tableWord nbits w 0)) := by
      rw [← hb, ← op_of_operandsOf ho, ownerPort_byte]
    simp only [Machine.decodeRequest, decodeOn, Machine.tableRequest, hd, hport, if_true]

/-! ### Response words -/

theorem toNat_ofNat_of_lt {n v : Nat} (h : v < 2 ^ n) : (BitVec.ofNat n v).toNat = v := by
  rw [BitVec.toNat_ofNat, Nat.mod_eq_of_lt h]

theorem append_toNat {a b : Nat} (x : BitVec a) (y : BitVec b) : (x ++ y).toNat = x.toNat * 2 ^ b + y.toNat := by
  rw [BitVec.toNat_append, ← Nat.shiftLeft_add_eq_or_of_lt y.isLt, Nat.shiftLeft_eq]

/-- A response word's value from its status and payload (R79). -/
theorem word_toNat (r : Machine.Reply) : r.word.toNat = r.status.toNat * 2 ^ 56 + r.payload.toNat :=
  append_toNat r.status r.payload

theorem payload_bounds_toNat {w h : Nat} (hw : w < 2 ^ 24) (hh : h < 2 ^ 24) :
    (Machine.Reply.bounds w h).payload.toNat = w * 2 ^ 24 + h := by
  have e : (Machine.Reply.bounds w h).payload.toNat =
      (0#8 ++ Machine.field24 w ++ Machine.field24 h : BitVec (8 + 24 + 24)).toNat := rfl
  rw [e, append_toNat, append_toNat, Machine.field24, Machine.field24, if_pos hw, if_pos hh,
    toNat_ofNat_of_lt hw, toNat_ofNat_of_lt hh]
  simp

theorem payload_errIo_toNat {e k : Nat} (hk : k < 2 ^ 48) : (Machine.Reply.errIo e k).payload.toNat = k := by
  have h : (Machine.Reply.errIo e k).payload.toNat = (0#8 ++ Machine.field48 k : BitVec (8 + 48)).toNat := rfl
  rw [h, append_toNat, Machine.field48, if_pos hk, toNat_ofNat_of_lt hk]
  simp

theorem payload_errIllegal_toNat (op : Byte) : (Machine.Reply.errIllegal op).payload.toNat = op.toNat := by
  have h : (Machine.Reply.errIllegal op).payload.toNat = (0#48 ++ op : BitVec (48 + 8)).toNat := rfl
  rw [h, append_toNat]
  simp

end Sys2Proof.Laws.Encoding
end

