-- ==== Sys2Proof/Laws/Polling.lean ====
section
/-! SUPPORT. What a poll can do (42_debounce.md R163, R165), said once: `pollLine_cases` for one line's visit,
`foldl_pollLine_cases` for any lines visited once each, `pollAll_cases` for a whole poll; and what its events say of one
line. -/

namespace Sys2Proof.Machine

/-! ### One line -/

@[simp] theorem drawLevel_bs (d : Debounce) : (drawLevel d).2.bs = d.bs := by unfold drawLevel; split <;> rfl
@[simp] theorem drawLevel_poll (d : Debounce) : (drawLevel d).2.poll = d.poll := by
  unfold drawLevel; split <;> rfl
@[simp] theorem drawLevel_running (d : Debounce) : (drawLevel d).2.running = d.running := by
  unfold drawLevel; split <;> rfl
@[simp] theorem drawLevel_lock (d : Debounce) : (drawLevel d).2.lock = d.lock := by
  unfold drawLevel; split <;> rfl
@[simp] theorem drawLevel_trace (d : Debounce) : (drawLevel d).2.trace = d.trace := by
  unfold drawLevel; split <;> rfl
@[simp] theorem drawLevel_responses (d : Debounce) : (drawLevel d).2.responses = d.responses := by
  unfold drawLevel; split <;> rfl

theorem drawLevel_listed {d : Debounce} {v : Level} {rest : List Level} (h : d.levels = v :: rest) :
    drawLevel d = (v, { d with levels := rest }) := by simp [drawLevel, h]

/-- The entry a line has after reading a level (R163). -/
def buttonAfter (c : Params) (now : Nat) (l : Line) (b : ButtonState) (v : Level) : ButtonState :=
  nextButton now b (mapLevel c l v)

/-- The events a line's visit leaves after reading a level (R163). -/
def eventsAfter (c : Params) (poll now : Nat) (l : Line) (b : ButtonState) (v : Level) : List DbEvent :=
  lineEvents l v now (classify c.hold poll now l b (mapLevel c l v))

/-- Everything one line's visit can do: it reads some level, updates that line's entry and appends the read and at
most one event. -/
theorem pollLine_cases (c : Params) (now : Nat) (d : Debounce) (l : Line) :
    ∃ v, (∀ v' rest, d.levels = v' :: rest →
        v = v' ∧ (pollLine c now d l).levels = rest ∧ (pollLine c now d l).draws = d.draws) ∧
      (pollLine c now d l).bs = d.bs.set l (buttonAfter c now l (d.bs.get l) v) ∧
      (pollLine c now d l).trace = d.trace ++ eventsAfter c d.poll now l (d.bs.get l) v ∧
      (pollLine c now d l).poll = d.poll ∧ (pollLine c now d l).running = d.running ∧
      (pollLine c now d l).lock = d.lock ∧ (pollLine c now d l).responses = d.responses := by
  refine ⟨(drawLevel d).1, fun v' rest h => ?_, ?_⟩
  · simp [pollLine, drawLevel_listed h]
  · simp [pollLine, buttonAfter, eventsAfter]

/-! ### Several lines -/

/-- Everything a poll of distinct lines can do: each of them reads one level, in order, and is updated by it from the
entry it had before the poll; the others keep their entries. -/
theorem foldl_pollLine_cases (c : Params) (now : Nat) (ls : List Line) (d : Debounce) (hnd : ls.Nodup) :
    ∃ lv : Line → Level,
      (∀ vs rest, d.levels = vs ++ rest → vs.length = ls.length → ls.map lv = vs ∧
        (ls.foldl (pollLine c now) d).levels = rest ∧ (ls.foldl (pollLine c now) d).draws = d.draws) ∧
      (∀ l, (ls.foldl (pollLine c now) d).bs.get l =
        if l ∈ ls then buttonAfter c now l (d.bs.get l) (lv l) else d.bs.get l) ∧
      (ls.foldl (pollLine c now) d).trace =
        d.trace ++ ls.flatMap (fun l => eventsAfter c d.poll now l (d.bs.get l) (lv l)) ∧
      (ls.foldl (pollLine c now) d).poll = d.poll ∧
      (ls.foldl (pollLine c now) d).running = d.running ∧
      (ls.foldl (pollLine c now) d).lock = d.lock ∧
      (ls.foldl (pollLine c now) d).responses = d.responses := by
  induction ls generalizing d with
  | nil =>
    refine ⟨fun _ => .low, fun vs rest h hl => ?_, by simp⟩
    have : vs = [] := List.eq_nil_of_length_eq_zero hl
    subst this
    exact ⟨rfl, by simpa using h, rfl⟩
  | cons l ls ih =>
    obtain ⟨hl, hnd'⟩ := List.nodup_cons.1 hnd
    obtain ⟨v, hv, hbs, htr, hp, hr, hk, hre⟩ := pollLine_cases c now d l
    obtain ⟨lv, jv, jbs, jtr, jp, jr, jk, jre⟩ := ih (pollLine c now d l) hnd'
    have hget : ∀ l' ∈ ls, (pollLine c now d l).bs.get l' = d.bs.get l' := by
      intro l' hl'
      have : l' ≠ l := fun h => hl (h ▸ hl')
      simp [hbs, this]
    refine ⟨fun l' => if l' = l then v else lv l', ?_, ?_, ?_, ?_, ?_, ?_, ?_⟩
    · intro vs rest h hlen
      cases vs with
      | nil => simp at hlen
      | cons v' vs =>
        obtain ⟨rfl, h', hdr⟩ := hv v' (vs ++ rest) (by simpa using h)
        obtain ⟨j1, j2, j3⟩ := jv vs rest h' (by simpa using hlen)
        refine ⟨?_, j2, j3.trans hdr⟩
        rw [List.map_cons, if_pos rfl, ← j1]
        congr 1
        refine List.map_congr_left fun l' hl' => ?_
        have : l' ≠ l := fun h => hl (h ▸ hl')
        simp [this]
    · intro l'
      rw [List.foldl_cons, jbs]
      by_cases h1 : l' ∈ ls
      · have : l' ≠ l := fun h => hl (h ▸ h1)
        simp [h1, this, hget l' h1]
      · by_cases h2 : l' = l
        · subst h2; simp [h1, hbs]
        · simp [h1, h2, hbs]
    · rw [List.foldl_cons, jtr, htr, List.append_assoc, List.flatMap_cons]
      simp only [if_true, hp]
      congr 2
      refine List.flatMap_congr fun l' hl' => ?_
      have : l' ≠ l := fun h => hl (h ▸ hl')
      simp [this, hget l' hl']
    · rw [List.foldl_cons, jp, hp]
    · rw [List.foldl_cons, jr, hr]
    · rw [List.foldl_cons, jk, hk]
    · rw [List.foldl_cons, jre, hre]

/-- Everything one poll of all lines can do. -/
theorem pollAll_cases (c : Params) (now : Nat) (d : Debounce) :
    ∃ lv : Line → Level,
      (∀ vs rest, d.levels = vs ++ rest → vs.length = 7 → Line.all.map lv = vs ∧
        (pollAll c now d).levels = rest ∧ (pollAll c now d).draws = d.draws) ∧
      (∀ l, (pollAll c now d).bs.get l = buttonAfter c now l (d.bs.get l) (lv l)) ∧
      (pollAll c now d).trace =
        d.trace ++ Line.all.flatMap (fun l => eventsAfter c d.poll now l (d.bs.get l) (lv l)) ∧
      (pollAll c now d).poll = d.poll ∧
      (pollAll c now d).running = d.running ∧
      (pollAll c now d).lock = d.lock ∧
      (pollAll c now d).responses = d.responses := by
  obtain ⟨lv, h1, h2, h3⟩ := foldl_pollLine_cases c now Line.all d Line.nodup_all
  exact ⟨lv, h1, fun l => by rw [pollAll, h2, if_pos (Line.mem_all l)], h3⟩

/-! ### The events of one line -/

@[simp] theorem lineEmits_nil (l : Line) : lineEmits l [] = [] := rfl

theorem lineEmits_append (l : Line) (a b : List DbEvent) :
    lineEmits l (a ++ b) = lineEmits l a ++ lineEmits l b := by simp [lineEmits]

/-- A visit's events belong to the visited line. -/
theorem lineEmits_eventsAfter (c : Params) (poll now : Nat) (l l' : Line) (b : ButtonState) (v : Level) :
    lineEmits l (eventsAfter c poll now l' b v) =
      if l' = l then ((classify c.hold poll now l' b (mapLevel c l' v)).map fun k => (k, now)).toList else [] := by
  unfold eventsAfter lineEvents lineEmits
  cases classify c.hold poll now l' b (mapLevel c l' v) <;> by_cases h : l' = l <;> simp [h]

/-- Of one poll's events, those of one line are the ones its own visit leaves (R179: at most one). -/
theorem lineEmits_poll (c : Params) (poll now : Nat) (l : Line) (ls : List Line) (hnd : ls.Nodup)
    (b : Line → ButtonState) (lv : Line → Level) :
    lineEmits l (ls.flatMap fun l' => eventsAfter c poll now l' (b l') (lv l')) =
      if l ∈ ls then ((classify c.hold poll now l (b l) (mapLevel c l (lv l))).map fun k => (k, now)).toList
      else [] := by
  induction ls with
  | nil => rfl
  | cons a ls ih =>
    obtain ⟨ha, hnd'⟩ := List.nodup_cons.1 hnd
    rw [List.flatMap_cons, lineEmits_append, ih hnd', lineEmits_eventsAfter]
    by_cases h : a = l
    · subst h; simp [ha]
    · simp [h, Ne.symm h]

theorem grammarFrom_append (st : Option Bool) (a b : List (EventKind × Nat)) :
    grammarFrom st (a ++ b) = grammarFrom (grammarFrom st a) b := by
  induction a generalizing st with
  | nil => simp [grammarFrom]
  | cons e a ih =>
    obtain ⟨k, t⟩ := e
    cases st with
    | none =>
      cases b with
      | nil => simp [grammarFrom]
      | cons f b => simp [grammarFrom]
    | some p =>
      cases p <;> cases k <;> simp only [List.cons_append, grammarFrom, ih]
      all_goals cases b <;> rfl

theorem lastClick_append_single (es : List (EventKind × Nat)) (k : EventKind) (t : Nat) :
    lastClick (es ++ [(k, t)]) = if k = .click then some t else lastClick es := by
  unfold lastClick
  cases k <;> simp

/-- One line's visit keeps the event grammar in step with `pressed` (R179). -/
theorem grammar_after_visit (hold poll now : Nat) (l : Line) (b : ButtonState) (cur : Bool) :
    grammarFrom (some b.pressed) ((classify hold poll now l b cur).map fun k => (k, now)).toList =
      some (nextButton now b cur).pressed := by
  obtain ⟨pressed, start⟩ := b
  cases pressed <;> cases cur <;> simp [classify, nextButton, grammarFrom]
  split <;> simp [grammarFrom]

/-- One line's visit keeps `start` the time of the last click (R32, R166). -/
theorem start_after_visit (hold poll now : Nat) (l : Line) (b : ButtonState) (cur : Bool)
    (es : List (EventKind × Nat)) (h : b.start = lastClick es) :
    (nextButton now b cur).start =
      lastClick (es ++ ((classify hold poll now l b cur).map fun k => (k, now)).toList) := by
  obtain ⟨pressed, start⟩ := b
  cases pressed <;> cases cur <;> simp [classify, nextButton] <;> try exact h
  · simp [lastClick_append_single]
  · simpa [lastClick_append_single] using h
  · split
    · simpa [lastClick_append_single] using h
    · simpa using h

end Sys2Proof.Machine
end

