-- ==== Sys2Proof/Laws/Step.lean ====
section
/-! SUPPORT. What a step can do, said once (`step_cases`), and what presenting a request first does. -/

namespace Sys2Proof.Machine

/-! ### Taking a request -/

/-- A taken request is one of those presented, is ready, and leaves the others. -/
theorem takeReady_some {s : State} {rs rest : List Request} {r : Request}
    (h : takeReady s rs = some (r, rest)) :
    requestReady s r = true ∧ ∃ before after, rs = before ++ r :: after ∧ rest = before ++ after ∧
      ∀ q ∈ before, requestReady s q = false := by
  induction rs generalizing r rest with
  | nil => simp [takeReady] at h
  | cons a rs ih =>
    simp only [takeReady] at h
    split at h
    · next ha =>
      simp only [Option.some.injEq, Prod.mk.injEq] at h
      obtain ⟨rfl, rfl⟩ := h
      exact ⟨ha, [], rs, rfl, rfl, by simp⟩
    · next ha =>
      obtain ⟨⟨q, others⟩, hq, heq⟩ := Option.map_eq_some_iff.1 h
      simp only [Prod.mk.injEq] at heq
      obtain ⟨rfl, rfl⟩ := heq
      obtain ⟨h1, before, after, h2, h3, h4⟩ := ih hq
      refine ⟨h1, a :: before, after, by simp [h2], by simp [h3], fun x hx => ?_⟩
      rcases List.mem_cons.1 hx with rfl | hx
      · simpa using ha
      · exact h4 x hx

theorem takeReady_none {s : State} {rs : List Request} (h : takeReady s rs = none) :
    ∀ r ∈ rs, requestReady s r = false := by
  induction rs with
  | nil => simp
  | cons a rs ih =>
    simp only [takeReady] at h
    split at h
    · simp at h
    · next ha =>
      intro r hr
      rcases List.mem_cons.1 hr with rfl | hr
      · simpa using ha
      · exact ih (by simpa using h) r hr

/-- The first request is taken when it is ready. -/
theorem takeReady_head {s : State} {r : Request} (rest : List Request) (h : requestReady s r = true) :
    takeReady s (r :: rest) = some (r, rest) := by simp [takeReady, h]

theorem requestReady_illegal {s : State} {r : Request} {e : DecodeError} (h : decodeRequest r = .error e) :
    requestReady s r = true := by simp [requestReady, h]

theorem requestReady_legal {s : State} {r : Request} {i : Instr} (h : decodeRequest r = .ok i) :
    requestReady s r = portFree s r.port := by simp [requestReady, h]

/-- A request that decodes at a port names an operation of that port. -/
theorem decodeOn_port {p : Port} {w0 w1 : Word} {i : Instr} (h : decodeOn p w0 w1 = .ok i) : i.op.port = p := by
  unfold decodeOn at h
  split at h
  · simp at h
  · split at h
    · next hp => simp only [Except.ok.injEq] at h; exact h ▸ hp
    · simp at h

/-! ### The step -/

/-- The three things a step can be: a wait, the refusal of an illegal request, or the performance of a legal request
on a free port. -/
theorem step_cases {s : State} {o : Host.Outcome State Fault Refusal} (h : step s = o) :
    (takeReady s s.pending = none ∧ o = .next (awaitRequests s)) ∨
    (∃ r rest e, takeReady s s.pending = some (r, rest) ∧ decodeRequest r = .error e ∧
      o = .next (refuseIllegal r rest s)) ∨
    (∃ r rest i, takeReady s s.pending = some (r, rest) ∧ decodeRequest r = .ok i ∧
      portFree s r.port = true ∧ o = exec i (accept r rest s)) := by
  subst h
  unfold step
  split
  · next ht => exact Or.inl ⟨ht, rfl⟩
  · next r rest ht =>
    have hready := (takeReady_some ht).1
    split
    · next e he => exact Or.inr (Or.inl ⟨r, rest, e, ht, he, rfl⟩)
    · next i hi =>
      rw [requestReady_legal hi] at hready
      exact Or.inr (Or.inr ⟨r, rest, i, ht, hi, hready, rfl⟩)

@[simp] theorem portFree_presentFirst (r : Request) (s : State) (p : Port) :
    portFree (presentFirst r s) p = true := by cases p <;> rfl

@[simp] theorem pending_presentFirst (r : Request) (s : State) :
    (presentFirst r s).pending = r :: s.pending := rfl

/-- A request presented first is ready. -/
theorem takeReady_presentFirst (r : Request) (s : State) :
    takeReady (presentFirst r s) (presentFirst r s).pending = some (r, s.pending) := by
  rw [pending_presentFirst]
  refine takeReady_head _ ?_
  unfold requestReady
  split <;> simp

end Sys2Proof.Machine
end

