-- ==== Sys2Proof/Laws/Exec.lean ====
section
/-! SUPPORT. What an operation of each port can do, said once (`exec_encoder_cases`, `exec_debounce_cases`), and what a
step can do to each sub-block (`step_effect`). -/

namespace Sys2Proof.Machine

/-- What an encoder operation's new events are: none for a framebuffer operation, else those of its primitives up to
the first error; only `ENC_INIT` runs the initialization's. -/
def EncoderEvents (c : Params) (i : Instr) (evs : List EncEvent) : Prop :=
  evs = [] ∨ ∃ m ps outcome, (ps = initPrims c ∧ i = .encInit ∨ ps = updatePrims c m ∨ ps = cmd c.panelOff) ∧
    EventsFor ps 0 outcome evs

/-- Everything an encoder operation can do outside the framebuffer: it touches the encoder sub-block only, appends its
events, moves the output lines as they say, gives one response and ends not busy (R3, R25, R29, R80). -/
theorem exec_encoder_cases {i : Instr} {s : State} (hp : i.op.port = .encoder) :
    ∃ t evs r, exec i s = .next t ∧ t = { s with enc := t.enc } ∧ t.enc.busy = false ∧
      t.enc.trace = s.enc.trace ++ evs ∧ t.enc.out = outReplay s.enc.out evs ∧
      t.enc.responses = s.enc.responses ++ [r] ∧ EncoderEvents s.cfg i evs := by
  have hrun : ∀ ps (s : State), ∃ new r outcome, (runEncOp ps s).enc.trace = s.enc.trace ++ new ∧
      (runEncOp ps s).enc.out = outReplay s.enc.out new ∧
      (runEncOp ps s).enc.responses = s.enc.responses ++ [r] ∧ EventsFor ps 0 outcome new := fun ps s => by
    obtain ⟨evs, outcome, h1, h2, h3, _, _, h6⟩ := runEncOp_cases ps s
    exact ⟨evs, _, outcome, h2, h3, h6, h1⟩
  cases i with
  | fbClear on => exact ⟨_, [], _, rfl, rfl, rfl, by simp, by simp, rfl, .inl rfl⟩
  | fbSet x y on => exact ⟨_, [], _, rfl, rfl, rfl, by simp, by simp, rfl, .inl rfl⟩
  | fbGet x y => exact ⟨_, [], _, rfl, rfl, rfl, by simp, by simp, rfl, .inl rfl⟩
  | fbBounds => exact ⟨_, [], _, rfl, rfl, rfl, by simp, by simp, rfl, .inl rfl⟩
  | encInit =>
    obtain ⟨a, b, oc, c, d, e, f⟩ := hrun (initPrims s.cfg) s
    exact ⟨_, a, b, rfl, rfl, rfl, c, d, e, .inr ⟨[], _, oc, .inl ⟨rfl, rfl⟩, f⟩⟩
  | encUpdate =>
    obtain ⟨a, b, oc, c, d, e, f⟩ := hrun (updatePrims s.cfg s.enc.fb) s
    exact ⟨_, a, b, rfl, rfl, rfl, c, d, e, .inr ⟨_, _, oc, .inr (.inl rfl), f⟩⟩
  | encDrawImage x0 y0 x1 y1 sx sy =>
    obtain ⟨a, b, oc, c, d, e, f⟩ :=
      hrun (updatePrims s.cfg (drawInto s.cfg s.image s.enc.fb x0 y0 x1 y1 sx sy))
        (s.withFb (drawInto s.cfg s.image s.enc.fb x0 y0 x1 y1 sx sy))
    exact ⟨_, a, b, rfl, rfl, rfl, c, d, e, .inr ⟨_, _, oc, .inr (.inl rfl), f⟩⟩
  | encPowerOff =>
    obtain ⟨a, b, oc, c, d, e, f⟩ := hrun (cmd s.cfg.panelOff) s
    exact ⟨_, a, b, rfl, rfl, rfl, c, d, e, .inr ⟨[], _, oc, .inr (.inr rfl), f⟩⟩
  | dbTick now => simp [Instr.op, Op.port] at hp
  | dbStart => simp [Instr.op, Op.port] at hp
  | dbStop => simp [Instr.op, Op.port] at hp
  | dbSetPoll p => simp [Instr.op, Op.port] at hp

/-- What one poll leaves in the trace and in the ButtonState file (R163, R165). -/
def PollEffect (c : Params) (d d' : Debounce) : Prop :=
  ∃ (now : Nat) (lv : Line → Level),
    d'.trace = d.trace ++ Line.all.flatMap (fun l => eventsAfter c d.poll now l (d.bs.get l) (lv l)) ∧
    ∀ l, d'.bs.get l = buttonAfter c now l (d.bs.get l) (lv l)

/-- `DB_SET_POLL` in one expression (R172, R82). -/
theorem exec_dbSetPoll (p : Nat) (s : State) :
    exec (.dbSetPoll p) s = .next (if p = 0 then respondDb .host (.errIllegal Op.dbSetPoll.byte) s
      else respondDb .host .ok (s.withDb { s.db with poll := p })) := by
  simp only [exec, execDbSetPoll]
  split <;> rfl

/-- Everything a debounce operation can do: it touches the debounce sub-block only, gives one response, ends with the
lock free, keeps the poll interval positive, and either leaves trace and file alone or is one poll (R3, R37, R80). -/
theorem exec_debounce_cases {i : Instr} {s : State} (hp : i.op.port = .debounce) :
    ∃ t q r, exec i s = .next t ∧ t = { s with db := t.db } ∧ t.db.lock = .free ∧
      t.db.responses = s.db.responses ++ [{ dest := q, reply := r }] ∧
      (t.db.poll = s.db.poll ∨ 0 < t.db.poll) ∧
      ((t.db.trace = s.db.trace ∧ t.db.bs = s.db.bs) ∨ PollEffect s.cfg s.db t.db) := by
  cases i with
  | dbTick now =>
    by_cases hr : s.db.running = true
    · obtain ⟨lv, _, h2, h3, h4, _, _, h7⟩ := pollAll_cases s.cfg now s.db
      refine ⟨_, .pollTimer, .ok, rfl, rfl, rfl, ?_, .inl ?_, .inr ⟨now, lv, ?_, ?_⟩⟩ <;>
        simp [hr, h2, h3, h4, h7]
    · refine ⟨_, .pollTimer, .ok, rfl, rfl, rfl, ?_, .inl ?_, .inl ?_⟩ <;> simp [hr]
  | dbStart =>
    refine ⟨_, .host, .ok, rfl, rfl, rfl, ?_, .inl ?_, .inl ?_⟩ <;> by_cases hr : s.db.running = true <;> simp [hr]
  | dbStop => exact ⟨_, _, _, rfl, rfl, rfl, rfl, .inl rfl, .inl ⟨rfl, rfl⟩⟩
  | dbSetPoll p =>
    refine ⟨_, .host, if p = 0 then .errIllegal Op.dbSetPoll.byte else .ok, exec_dbSetPoll p s, ?_⟩
    by_cases h : p = 0
    · rw [if_pos h, if_pos h]
      exact ⟨rfl, rfl, rfl, .inl rfl, .inl ⟨rfl, rfl⟩⟩
    · rw [if_neg h, if_neg h]
      exact ⟨rfl, rfl, rfl, .inr (Nat.pos_of_ne_zero h), .inl ⟨rfl, rfl⟩⟩
  | fbClear on => simp [Instr.op, Op.port] at hp
  | fbSet x y on => simp [Instr.op, Op.port] at hp
  | fbGet x y => simp [Instr.op, Op.port] at hp
  | fbBounds => simp [Instr.op, Op.port] at hp
  | encInit => simp [Instr.op, Op.port] at hp
  | encUpdate => simp [Instr.op, Op.port] at hp
  | encDrawImage x0 y0 x1 y1 sx sy => simp [Instr.op, Op.port] at hp
  | encPowerOff => simp [Instr.op, Op.port] at hp

/-- An encoder operation made of primitives leaves the framebuffer alone (R192). -/
theorem runEncOp_fb (ps : List Prim) (s : State) : (runEncOp ps s).enc.fb = s.enc.fb := by
  obtain ⟨_, _, _, _, _, _, h, _⟩ := runEncOp_cases ps s
  exact h

/-- What any operation does to the framebuffer: the canonical form and the address space stay, and a pixel it does not
write reads as before (R23, R50, R51). -/
theorem exec_framebuffer (i : Instr) (s : State) (hw : Memory.wf s.enc.fb = true) :
    ∃ t, exec i s = .next t ∧ t.cfg = s.cfg ∧ Memory.wf t.enc.fb = true ∧
      (s.cfg.height % 8 = 0 → Memory.within s.cfg.bytes s.enc.fb = true →
        Memory.within s.cfg.bytes t.enc.fb = true) ∧
      (∀ x y, inB s.cfg x y = true → writesPixel s.cfg x y i = false →
        getPixel s.cfg t.enc.fb x y = getPixel s.cfg s.enc.fb x y) := by
  cases i with
  | fbClear on =>
    exact ⟨_, rfl, rfl, Memory.wf_fill _ _ hw, fun _ h => Memory.within_fill _ h, by simp [writesPixel]⟩
  | fbSet x y on =>
    refine ⟨_, rfl, rfl, wf_setPixel _ _ _ _ hw, fun h8 h => within_setPixel _ _ _ h8 h, ?_⟩
    intro x' y' h hn
    simp only [writesPixel, Bool.and_eq_false_iff, decide_eq_false_iff_not] at hn
    simp only [respondEnc_fb, State.withFb_enc_fb]
    rw [getPixel_setPixel _ _ _ hw h, if_neg]
    rintro ⟨_, rfl, rfl⟩
    simp at hn
  | encDrawImage x0 y0 x1 y1 sx sy =>
    obtain ⟨a, b⟩ := drawInto_inv s.cfg s.image s.enc.fb x0 y0 x1 y1 sx sy hw
    refine ⟨_, rfl, rfl, ?_, fun h1 h2 => ?_, fun x y h hn => ?_⟩
    · rw [runEncOp_fb]; exact a
    · rw [runEncOp_fb]; exact b h1 h2
    · rw [runEncOp_fb, State.withFb_enc_fb, getPixel_drawInto _ _ _ _ _ _ _ _ _ hw h]
      simp only [writesPixel] at hn
      simp [hn]
  | fbGet x y => exact ⟨_, rfl, rfl, hw, fun _ h => h, fun _ _ _ _ => rfl⟩
  | fbBounds => exact ⟨_, rfl, rfl, hw, fun _ h => h, fun _ _ _ _ => rfl⟩
  | encInit =>
    exact ⟨_, rfl, rfl, by rw [runEncOp_fb]; exact hw, fun _ h => by rw [runEncOp_fb]; exact h,
      fun _ _ _ _ => by rw [runEncOp_fb]⟩
  | encUpdate =>
    exact ⟨_, rfl, rfl, by rw [runEncOp_fb]; exact hw, fun _ h => by rw [runEncOp_fb]; exact h,
      fun _ _ _ _ => by rw [runEncOp_fb]⟩
  | encPowerOff =>
    exact ⟨_, rfl, rfl, by rw [runEncOp_fb]; exact hw, fun _ h => by rw [runEncOp_fb]; exact h,
      fun _ _ _ _ => by rw [runEncOp_fb]⟩
  | dbTick now => exact ⟨_, rfl, rfl, hw, fun _ h => h, fun _ _ _ _ => rfl⟩
  | dbStart => exact ⟨_, rfl, rfl, hw, fun _ h => h, fun _ _ _ _ => rfl⟩
  | dbStop => exact ⟨_, rfl, rfl, hw, fun _ h => h, fun _ _ _ _ => rfl⟩
  | dbSetPoll p =>
    refine ⟨_, exec_dbSetPoll p s, ?_, ?_, ?_, ?_⟩ <;> split <;> first | rfl | exact hw | exact fun _ h => h |
      exact fun _ _ _ _ => rfl

/-! ### A step -/

/-- What a step can do to the encoder's trace, lines and busy flag: nothing, or one operation's events. -/
def EncoderEffect (c : Params) (e e' : Encoder) : Prop :=
  (e'.trace = e.trace ∧ e'.out = e.out ∧ e'.busy = e.busy) ∨
  ∃ i evs, i.op.port = .encoder ∧ e'.busy = false ∧ e'.trace = e.trace ++ evs ∧ e'.out = outReplay e.out evs ∧
    EncoderEvents c i evs

/-- What a step can do to the debounce sub-block. -/
def DebounceEffect (c : Params) (d d' : Debounce) : Prop :=
  (d'.poll = d.poll ∨ 0 < d'.poll) ∧ (d'.lock = d.lock ∨ d'.lock = .free) ∧
    ((d'.trace = d.trace ∧ d'.bs = d.bs) ∨ PollEffect c d d')

/-- Everything a step can do, sub-block by sub-block: each is left alone, or has one operation done to it. -/
theorem step_effect {s t : State} (h : step s = .next t) :
    t.cfg = s.cfg ∧ EncoderEffect s.cfg s.enc t.enc ∧ DebounceEffect s.cfg s.db t.db := by
  rcases step_cases h with ⟨_, h⟩ | ⟨r, rest, e, _, _, h⟩ | ⟨r, rest, i, _, hi, hf, h⟩
  · simp only [Host.Outcome.next.injEq] at h
    subst h
    exact ⟨rfl, .inl ⟨rfl, rfl, rfl⟩, .inl rfl, .inl rfl, .inl ⟨rfl, rfl⟩⟩
  · simp only [Host.Outcome.next.injEq] at h
    subst h
    exact ⟨by simp, .inl ⟨by simp, by simp, by simp⟩, .inl (by simp), .inl (by simp), .inl ⟨by simp, by simp⟩⟩
  · have hport := decodeOn_port hi
    cases hp : r.port with
    | encoder =>
      obtain ⟨u, evs, q, k1, k2, k3, k4, k5, _, k7⟩ := exec_encoder_cases (s := accept r rest s) (hport.trans hp)
      rw [k1, Host.Outcome.next.injEq] at h
      subst h
      have hdb : t.db = s.db := by rw [k2]; simp [accept, hp]
      refine ⟨by rw [k2]; simp, .inr ⟨i, evs, hport.trans hp, k3, by simpa using k4, by simpa using k5,
        by simpa using k7⟩, .inl (by rw [hdb]), .inl (by rw [hdb]), .inl ⟨by rw [hdb], by rw [hdb]⟩⟩
    | debounce =>
      obtain ⟨u, q, q', k1, k2, k3, _, k5, k6⟩ := exec_debounce_cases (s := accept r rest s) (hport.trans hp)
      rw [k1, Host.Outcome.next.injEq] at h
      subst h
      have henc : t.enc = s.enc := by rw [k2]; simp [accept, hp]
      refine ⟨by rw [k2]; simp, .inl (by rw [henc]; exact ⟨rfl, rfl, rfl⟩), by simpa using k5, .inr k3,
        by simpa [PollEffect] using k6⟩

end Sys2Proof.Machine
end

