-- ==== Sys2Proof/Laws/Operations.lean ====
section
/-! SUPPORT. The primitives of each encoder operation (41_encoder.md R124, R133, R137, R149): the lists the meanings use are
the ones Safety.lean writes out, how long they are, where their pages stand, and what they leave on the lines; and the
events of one visited line in Safety.lean's terms (42_debounce.md R163). -/

namespace Sys2Proof.Machine

/-! ### The lists of primitives -/

theorem initPrims_eq_initSteps (c : Params) : initPrims c = initSteps c := by
  simp [initPrims, initSteps, resetPulse]
  rfl

theorem pagePrims_eq_pageSteps (c : Params) (m : Memory) (p : Nat) : pagePrims c m p = pageSteps c m p := by
  simp [pagePrims, pageSteps, cmd, dataTxn, txn, TxnMode.level, pageData]

theorem updatePrims_eq_pagesSteps (c : Params) (m : Memory) : updatePrims c m = pagesSteps c m c.pages := by
  unfold updatePrims pagesSteps
  rw [show pagePrims c m = pageSteps c m from funext (pagePrims_eq_pageSteps c m)]

theorem length_flatMap_cmd (bs : List Byte) : (bs.flatMap cmd).length = 4 * bs.length := by
  induction bs with
  | nil => rfl
  | cons b bs ih => simp [ih, cmd, txn]; omega

theorem fallible_flatMap_cmd (bs : List Byte) : (bs.flatMap cmd).countP Prim.fallible = 4 * bs.length := by
  induction bs with
  | nil => rfl
  | cons b bs ih => simp [ih, cmd, txn, List.countP_cons, Prim.fallible]; omega

theorem length_initPrims (c : Params) : (initPrims c).length = 6 + 4 * c.initSeq.length := by
  rw [initPrims, List.length_append, length_flatMap_cmd]
  rfl

theorem fallible_initPrims (c : Params) : (initPrims c).countP Prim.fallible = 3 + 4 * c.initSeq.length := by
  rw [initPrims, List.countP_append, fallible_flatMap_cmd]
  rfl

theorem length_pageSteps (c : Params) (m : Memory) (p : Nat) : (pageSteps c m p).length = 16 := by simp [pageSteps]

theorem pagesSteps_succ (c : Params) (m : Memory) (n : Nat) :
    pagesSteps c m (n + 1) = pagesSteps c m n ++ pageSteps c m n := by
  simp [pagesSteps, List.range_succ]

theorem length_pagesSteps (c : Params) (m : Memory) (n : Nat) : (pagesSteps c m n).length = 16 * n := by
  induction n with
  | zero => rfl
  | succ n ih => rw [pagesSteps_succ, List.length_append, ih, length_pageSteps]; omega

theorem fallible_pagesSteps (c : Params) (m : Memory) (n : Nat) :
    (pagesSteps c m n).countP Prim.fallible = 16 * n := by
  rw [← length_pagesSteps c m n, List.countP_eq_length]
  intro p hp
  simp [pagesSteps, pageSteps] at hp
  obtain ⟨_, _, hp⟩ := hp
  rcases hp with rfl | rfl | rfl | rfl | rfl | rfl | rfl | rfl | rfl | rfl | rfl | rfl | rfl | rfl | rfl | rfl <;> rfl

/-- The first `16 * p` primitives of an update are its pages `0 .. p - 1` (R137). -/
theorem take_pagesSteps (c : Params) (m : Memory) (n p : Nat) (h : p ≤ n) :
    (pagesSteps c m n).take (16 * p) = pagesSteps c m p := by
  induction n with
  | zero =>
    have : p = 0 := by omega
    subst this
    simp [pagesSteps]
  | succ n ih =>
    by_cases hp : p = n + 1
    · subst hp; rw [← length_pagesSteps c m (n + 1), List.take_length]
    · rw [pagesSteps_succ, List.take_append_of_le_length (by rw [length_pagesSteps]; omega), ih (by omega)]

/-- The sixteen primitives from index `16 * p` on are those of page `p` (R137). -/
theorem page_of_pagesSteps (c : Params) (m : Memory) (n p : Nat) (h : p < n) :
    ((pagesSteps c m n).drop (16 * p)).take 16 = pageSteps c m p := by
  have := take_pagesSteps c m n (p + 1) (by omega)
  rw [List.take_drop, show 16 * p + 16 = 16 * (p + 1) by ring, this, pagesSteps_succ,
    List.drop_append_of_le_length (by rw [length_pagesSteps]), List.drop_eq_nil_of_le (by rw [length_pagesSteps]),
    List.nil_append]

/-- Primitive `k` of an update is primitive `k mod 16` of page `k div 16` (R137, R138). -/
theorem getElem?_pagesSteps (c : Params) (m : Memory) (n k : Nat) (h : k < 16 * n) :
    (pagesSteps c m n)[k]? = (pageSteps c m (k / 16))[k % 16]? := by
  rw [← page_of_pagesSteps c m n (k / 16) (by omega), List.getElem?_take, if_pos (Nat.mod_lt _ (by decide)),
    List.getElem?_drop, Nat.div_add_mod]

/-- The primitives of an update before index `k`, page by page (R138). -/
theorem take_pagesSteps_at (c : Params) (m : Memory) (n k : Nat) (h : k < 16 * n) :
    (pagesSteps c m n).take k = pagesSteps c m (k / 16) ++ (pageSteps c m (k / 16)).take (k % 16) := by
  have hk : 16 * (k / 16) + k % 16 = k := Nat.div_add_mod k 16
  have h16 : k % 16 < 16 := Nat.mod_lt _ (by decide)
  rw [← page_of_pagesSteps c m n (k / 16) (by omega), List.take_take, Nat.min_eq_left (by omega), List.take_drop, hk,
    ← take_pagesSteps c m n (k / 16) (by omega)]
  have : (pagesSteps c m n).take (16 * (k / 16)) = ((pagesSteps c m n).take k).take (16 * (k / 16)) := by
    rw [List.take_take, Nat.min_eq_left (by omega)]
  rw [this, List.take_append_drop]

/-! ### What they leave on the lines -/

theorem outReplay_flatMap_cmd (bs : List Byte) (o : OutLines) (h : bs ≠ []) :
    outReplay o ((bs.flatMap cmd).map .succeeded) = { o with dc := .low, cs := .high } := by
  induction bs generalizing o with
  | nil => simp at h
  | cons b bs ih =>
    rw [List.flatMap_cons, List.map_append, outReplay_append]
    unfold cmd at *
    rw [outReplay_txn]
    by_cases hb : bs = []
    · subst hb; simp [OutLevel.ofLevel, TxnMode.level]
    · rw [ih _ hb]

/-- The eleven segments are not all empty, so `INIT_SEQ` is not (R125). -/
theorem initSeq_ne_nil {c : Params} (h : c.ValidInit) : c.initSeq ≠ [] := by
  obtain ⟨h1, h2, _⟩ := h
  unfold Params.initSeq
  intro h
  rw [List.flatten_eq_nil_iff] at h
  cases hs : c.initSegments with
  | nil => simp [hs] at h1
  | cons a l => exact h2 a (by simp [hs]) (h a (by simp [hs]))

/-- The lines after a successful initialization (R124, R126). -/
theorem outReplay_initPrims {c : Params} (hv : c.ValidInit) (o : OutLines) :
    outReplay o ((initPrims c).map .succeeded) = { dc := .low, rst := .high, cs := .high } := by
  rw [initPrims, List.map_append, outReplay_append, outReplay_flatMap_cmd _ _ (initSeq_ne_nil hv)]
  simp [resetPulse, EncEvent.succeeded, outAfter, OutLines.set, OutLevel.ofLevel]

theorem outReplay_pageSteps (c : Params) (m : Memory) (p : Nat) (o : OutLines) :
    outReplay o ((pageSteps c m p).map .succeeded) = { o with dc := .high, cs := .high } := by
  rw [← pagePrims_eq_pageSteps]
  simp only [pagePrims, cmd, dataTxn, List.map_append, outReplay_append, outReplay_txn, OutLevel.ofLevel,
    TxnMode.level]

/-- The lines after a successful update (R121, R137). -/
theorem outReplay_pagesSteps (c : Params) (m : Memory) (n : Nat) (o : OutLines) (h : 0 < n) :
    outReplay o ((pagesSteps c m n).map .succeeded) = { o with dc := .high, cs := .high } := by
  induction n with
  | zero => omega
  | succ n ih =>
    rw [pagesSteps_succ, List.map_append, outReplay_append, outReplay_pageSteps]
    by_cases hn : n = 0
    · subst hn; simp [pagesSteps]
    · rw [ih (by omega)]

/-! ### What they send -/

theorem busTransfers_flatMap_cmd (bs : List Byte) (o : OutLines) :
    busTransfers o ((bs.flatMap cmd).map .succeeded) = bs.map fun b => (.low, .low, [b]) := by
  induction bs generalizing o with
  | nil => rfl
  | cons b bs ih =>
    rw [List.flatMap_cons, List.map_append, busTransfers_append, ih]
    unfold cmd
    rw [busTransfers_txn]
    rfl

/-- Transactions of the right sizes give transfers of the right shape (R59, R123). -/
theorem transferOk_txns (w : Nat) (o : OutLines) (ts : List (TxnMode × List Byte))
    (h : ∀ x ∈ ts, x.2.length = match x.1 with | .cmd => 1 | .data => w) :
    ∀ x ∈ busTransfers o ((ts.flatMap fun p => txn p.1 p.2).map .succeeded), transferOk w x = true := by
  induction ts generalizing o with
  | nil => simp [busTransfers]
  | cons a ts ih =>
    obtain ⟨mode, bytes⟩ := a
    intro x hx
    rw [List.flatMap_cons, List.map_append, busTransfers_append, busTransfers_txn] at hx
    rcases List.mem_append.1 hx with hx | hx
    · simp only [List.mem_singleton] at hx
      subst hx
      have := h (mode, bytes) (by simp)
      cases mode <;> simp at this <;> simp [transferOk, this, TxnMode.level, OutLevel.ofLevel]
    · exact ih _ (fun x hx => h x (by simp [hx])) x hx

/-- Every transfer of an encoder operation has the right shape (R59, R123, R228). -/
theorem transferOk_prims (c : Params) (m : Memory) (ps : List Prim)
    (h : ps = initPrims c ∨ ps = updatePrims c m ∨ ps = cmd c.panelOff) (o : OutLines) :
    ∀ x ∈ busTransfers o (ps.map .succeeded), transferOk c.width x = true := by
  rcases h with rfl | rfl | rfl
  · rw [initPrims, List.map_append, busTransfers_append]
    intro x hx
    rcases List.mem_append.1 hx with hx | hx
    · simp [resetPulse, busTransfers, EncEvent.succeeded] at hx
    · have := transferOk_txns c.width (outReplay o ((resetPulse c).map .succeeded))
        (c.initSeq.map fun b => (.cmd, [b])) (by simp) x
      rw [List.flatMap_map] at this
      exact this hx
  · have := transferOk_txns c.width o ((List.range c.pages).flatMap fun p =>
      [(.cmd, [c.pageSelect p]), (.cmd, [c.colLo]), (.cmd, [c.colHi]), (.data, pageData c m p)]) ?_
    · rw [List.flatMap_assoc] at this
      have e : (fun p => List.flatMap (fun p => txn p.1 p.2)
          [(TxnMode.cmd, [c.pageSelect p]), (.cmd, [c.colLo]), (.cmd, [c.colHi]), (.data, pageData c m p)]) =
          pagePrims c m := by
        funext p; simp [pagePrims, cmd, dataTxn]
      rw [e] at this
      exact this
    · intro x hx
      simp only [List.mem_flatMap, List.mem_cons, List.not_mem_nil, or_false] at hx
      obtain ⟨p, _, rfl | rfl | rfl | rfl⟩ := hx <;> simp [pageData]
  · intro x hx
    rw [cmd, busTransfers_txn, List.mem_singleton] at hx
    subst hx
    simp [transferOk, TxnMode.level, OutLevel.ofLevel]

/-- A sequence of primitives that ends in an error ends at one that can fail (R12). -/
theorem runPrims_error_fallible {ps : List Prim} {e : Encoder} {x k : Nat}
    (h : (runPrims ps e).1 = some (x, k)) : ∃ p, ps[k - e.k]? = some p ∧ p.fallible = true ∧ e.k ≤ k := by
  induction ps generalizing e with
  | nil => simp [runPrims] at h
  | cons p ps ih =>
    cases hr : (doPrim p e).1 with
    | err y =>
      rw [runPrims_cons_err hr] at h
      simp only [Option.some.injEq, Prod.mk.injEq] at h
      obtain ⟨_, rfl⟩ := h
      refine ⟨p, by simp, ?_, Nat.le_refl _⟩
      cases p with
      | lineWrite l lvl => rfl
      | busTx bytes => rfl
      | delay d => simp [doPrim_delay] at hr
    | ok =>
      rw [runPrims_cons_ok hr] at h
      obtain ⟨q, h1, h2, h3⟩ := ih h
      rw [doPrim_k] at h1 h3
      refine ⟨q, ?_, h2, by omega⟩
      rw [show k - e.k = (k - (e.k + 1)) + 1 by omega, List.getElem?_cons_succ]
      exact h1

/-! ### What they use of the environment's answers -/

theorem pollLine_levels_suffix (c : Params) (now : Nat) (d : Debounce) (l : Line) :
    (pollLine c now d l).levels <:+ d.levels := by
  simp only [pollLine, drawLevel]
  split
  · next h => rw [h]; exact List.suffix_cons _ _
  · next h => rw [h]

/-- A poll uses up levels from the front of the list (R12). -/
theorem foldl_pollLine_levels_suffix (c : Params) (now : Nat) (ls : List Line) (d : Debounce) :
    (ls.foldl (pollLine c now) d).levels <:+ d.levels := by
  induction ls generalizing d with
  | nil => exact List.suffix_refl _
  | cons l ls ih => exact (ih _).trans (pollLine_levels_suffix c now d l)

theorem doPrim_answers_suffix (p : Prim) (e : Encoder) : (doPrim p e).2.answers <:+ e.answers := by
  have : (drawAnswer e).2.answers <:+ e.answers := by
    unfold drawAnswer
    split
    · next h => rw [h]; exact List.suffix_cons _ _
    · next h => rw [h]
  cases p <;> simp [doPrim, primResult, this]

/-- A sequence of primitives uses up answers from the front of the list (R12). -/
theorem runPrims_answers_suffix (ps : List Prim) (e : Encoder) : (runPrims ps e).2.answers <:+ e.answers := by
  induction ps generalizing e with
  | nil => exact List.suffix_refl _
  | cons p ps ih =>
    cases hr : (doPrim p e).1 with
    | err x => rw [runPrims_cons_err hr]; exact doPrim_answers_suffix p e
    | ok => rw [runPrims_cons_ok hr]; exact (ih _).trans (doPrim_answers_suffix p e)

/-! ### One line's visit, in Safety.lean's terms -/

theorem visitEvents_eq_eventsAfter (c : Params) (poll now : Nat) (l : Line) (b : ButtonState) (v : Level) :
    visitEvents c poll now l b v = eventsAfter c poll now l b v := by
  unfold visitEvents eventsAfter lineEvents classify inHoldWindow elapsed
  obtain ⟨pr, st⟩ := b
  cases pr <;> cases mapLevel c l v <;> simp
  split <;> rfl

theorem visitEntry_eq_buttonAfter (c : Params) (now : Nat) (l : Line) (b : ButtonState) (v : Level) :
    visitEntry c now l b v = buttonAfter c now l b v := by
  unfold visitEntry buttonAfter nextButton
  obtain ⟨pr, st⟩ := b
  cases pr <;> cases mapLevel c l v <;> simp

/-- What one poll says of one line: the level it read, the entry it left, and the line's events (R163, R179). -/
theorem pollAll_line (c : Params) (now : Nat) (d : Debounce) (l : Line) :
    ∃ new v, (pollAll c now d).trace = d.trace ++ new ∧ DbEvent.readLevel l v ∈ new ∧
      (pollAll c now d).bs.get l = nextButton now (d.bs.get l) (mapLevel c l v) ∧
      lineEmits l new = ((classify c.hold d.poll now l (d.bs.get l) (mapLevel c l v)).map fun k => (k, now)).toList ∧
      (pollAll c now d).poll = d.poll ∧ (pollAll c now d).running = d.running := by
  obtain ⟨lv, _, h2, h3, h4, h5, _, _⟩ := pollAll_cases c now d
  refine ⟨_, lv l, h3, ?_, h2 l, ?_, h4, h5⟩
  · exact List.mem_flatMap.2 ⟨l, Line.mem_all l, by simp [eventsAfter, lineEvents]⟩
  · rw [lineEmits_poll _ _ _ _ _ Line.nodup_all, if_pos (Line.mem_all l)]

end Sys2Proof.Machine
end

