-- ==== Sys2Proof/Tests/Slice0.lean ====
section
/-! SUPPORT. Tests on fixed values. Words, terms, responses, bytes, traces and events are the ones 95_test_vectors.md works
out by hand (its L1, L2 and L3, named in each comment); the `test_witness_…` theorems each show data that meet all
hypotheses of one statement together. -/

namespace Sys2Proof.Tests

open Sys2Proof Sys2Proof.Machine

/-! ### Configurations and states -/

/-- Eleven one-byte segments; the first is the panel-off byte of the reference profile. -/
def initSegments : List (List Byte) :=
  [[0xAE#8], [0x20#8], [0x81#8], [0xC8#8], [0xA8#8], [0xD5#8], [0xD9#8], [0xDA#8], [0xDB#8], [0xA6#8], [0xAF#8]]

/-- The reference configuration of 00_scope.md R7 with the `INIT_SEQ` above. -/
def refCfg : Params where
  width := 128
  height := 64
  initSegments := initSegments
  pageSel := [0xB0#8, 0xB1#8, 0xB2#8, 0xB3#8, 0xB4#8, 0xB5#8, 0xB6#8, 0xB7#8]
  colLo := 0x02#8
  colHi := 0x10#8
  panelOff := 0xAE#8
  rstD1 := .rational 1
  rstD2 := .rational 2
  rstD3 := .rational 3
  poll0 := 50
  hold := 200
  activeLow := 0x7F#7
  channelBits := 8
  timeUnit := .rational 1
  wiring := { bus := true, dc := true, rst := true, cs := true, inputs := BitVec.allOnes 7 }

/-- The same with one page of two columns. -/
def tinyCfg : Params := { refCfg with width := 2, height := 8, pageSel := [0xB0#8] }

/-- The reference block right after reset. -/
def ref : State := State.ofParams refCfg

/-- The small block right after reset. -/
def tiny : State := State.ofParams tinyCfg

/-- A block whose environment will answer as listed. -/
def answering (s : State) (as : List IoResult) : State := { s with enc := { s.enc with answers := as } }

/-- A block with a given framebuffer. -/
def holding (s : State) (m : Memory) : State := { s with enc := { s.enc with fb := m } }

/-- A running block whose lines will read as listed. -/
def polling (s : State) (ls : List Level) : State := { s with db := { s.db with running := true, levels := ls } }

/-- The same with an entry for line 0. -/
def pollingUp (s : State) (ls : List Level) (b : ButtonState) : State :=
  { s with db := { s.db with running := true, levels := ls, bs := { s.db.bs with up := b } } }

/-- A block to which requests are presented. -/
def presented (s : State) (rs : List Request) : State := { s with pending := rs }

/-- A request with no listed image point. -/
def request (p : Port) (w0 w1 : Word) : Request :=
  { port := p, word0 := w0, word1 := w1, image := { tag := 0, points := [] } }

/-- Seven levels with line 0 at `v`, the others released. -/
def upReads (v : Level) : List Level := [v, .high, .high, .high, .high, .high, .high]

/-- The state after an instruction. -/
def after (i : Instr) (s : State) : State :=
  match exec i s with
  | .next t => t
  | .fault _ => s
  | .refused _ => s

/-- The state after a step. -/
def stepped (s : State) : State :=
  match step s with
  | .next t => t
  | .fault _ => s
  | .refused _ => s

/-- The source image of V-D8. -/
def blackAndWhite : SourceImage where
  tag := 0
  points := [⟨5, 5, ⟨0, 0, 0⟩⟩, ⟨6, 5, ⟨255, 255, 255⟩⟩]

/-! ### Well-formedness: an ill-formed term for each check -/

theorem test_fbSet_x_too_low : (Instr.fbSet (-2049) 0 true).wellFormed = false := by decide
theorem test_fbSet_y_too_high : (Instr.fbSet 0 2048 true).wellFormed = false := by decide
theorem test_fbGet_x_too_high : (Instr.fbGet 2048 0).wellFormed = false := by decide
theorem test_fbGet_y_too_low : (Instr.fbGet 0 (-2049)).wellFormed = false := by decide
theorem test_encDrawImage_rectangle_too_wide :
    (Instr.encDrawImage 2048 0 0 0 0 0).wellFormed = false ∧ (Instr.encDrawImage 0 2048 0 0 0 0).wellFormed = false ∧
    (Instr.encDrawImage 0 0 2048 0 0 0).wellFormed = false ∧ (Instr.encDrawImage 0 0 0 2048 0 0).wellFormed = false := by
  decide
theorem test_encDrawImage_offset_too_low :
    (Instr.encDrawImage 0 0 0 0 (-2049) 0).wellFormed = false ∧
    (Instr.encDrawImage 0 0 0 0 0 (-2049)).wellFormed = false := by decide
theorem test_dbTick_too_late : (Instr.dbTick (2 ^ 48)).wellFormed = false := by decide
theorem test_dbSetPoll_too_long : (Instr.dbSetPoll (2 ^ 48)).wellFormed = false := by decide
theorem test_dbSetPoll_zero : (Instr.dbSetPoll 0).wellFormed = false := by decide

/-! ### Decoding: words of 95_test_vectors.md L2 "Encoding" -/

theorem test_decode_fbClear :
    decodeOn .encoder 0x0100000000000000#64 0#64 = .ok (.fbClear false) ∧
    decodeOn .encoder 0x0100000000000001#64 0#64 = .ok (.fbClear true) := by decide
theorem test_decode_fbSet :
    decodeOn .encoder 0x020000000100300A#64 0#64 = .ok (.fbSet 3 10 true) ∧
    decodeOn .encoder 0x020000000007F03F#64 0#64 = .ok (.fbSet 127 63 false) ∧
    decodeOn .encoder 0x02000000017FF800#64 0#64 = .ok (.fbSet 2047 (-2048) true) := by decide
theorem test_decode_fbGet :
    decodeOn .encoder 0x030000000007F03F#64 0#64 = .ok (.fbGet 127 63) := by decide
theorem test_decode_fbBounds : decodeOn .encoder 0x0400000000000000#64 0#64 = .ok .fbBounds := by decide
theorem test_decode_encInit : decodeOn .encoder 0x1000000000000000#64 0#64 = .ok .encInit := by decide
theorem test_decode_encUpdate : decodeOn .encoder 0x1100000000000000#64 0#64 = .ok .encUpdate := by decide
theorem test_decode_encDrawImage :
    decodeOn .encoder 0x1200000000002001#64 0xFF00000000005005#64 = .ok (.encDrawImage 0 0 2 1 5 5) ∧
    decodeOn .encoder 0x1200FFFFFF001001#64 0xFF00000000000000#64 = .ok (.encDrawImage (-1) (-1) 1 1 0 0) := by decide
theorem test_decode_encPowerOff : decodeOn .encoder 0x1300000000000000#64 0#64 = .ok .encPowerOff := by decide
theorem test_decode_dbTick :
    decodeOn .debounce 0x2000000000000000#64 0#64 = .ok (.dbTick 0) ∧
    decodeOn .debounce 0x20000000000003E8#64 0#64 = .ok (.dbTick 1000) := by decide
theorem test_decode_dbStart : decodeOn .debounce 0x2100000000000000#64 0#64 = .ok .dbStart := by decide
theorem test_decode_dbStop : decodeOn .debounce 0x2200000000000000#64 0#64 = .ok .dbStop := by decide
theorem test_decode_dbSetPoll : decodeOn .debounce 0x2300000000000032#64 0#64 = .ok (.dbSetPoll 50) := by decide

/-- The illegal words of L2, each by its reason. -/
theorem test_illegal_words :
    decodeOn .encoder 0x0000000000000000#64 0#64 = .error (.unassignedOpcode 0x00#8) ∧
    decodeOn .encoder 0x0500000000000000#64 0#64 = .error (.unassignedOpcode 0x05#8) ∧
    decodeOn .encoder 0xFF00000000000000#64 0#64 = .error (.unassignedOpcode 0xFF#8) ∧
    decodeOn .encoder 0x0100000000000002#64 0#64 = .error (.reservedBits 0x01#8) ∧
    decodeOn .encoder 0x0300000001000000#64 0#64 = .error (.reservedBits 0x03#8) ∧
    decodeOn .encoder 0x1100000000000001#64 0#64 = .error (.reservedBits 0x11#8) ∧
    decodeOn .debounce 0x2001000000000000#64 0#64 = .error (.reservedBits 0x20#8) := by decide
theorem test_illegal_pairs_and_ports :
    decodeOn .encoder 0x1200000000002001#64 0xFE00000000005005#64 = .error .badSecondWord ∧
    decodeOn .encoder 0x1200000000002001#64 0xFF00000001005005#64 = .error .badSecondWord ∧
    decodeOn .encoder 0x2000000000000064#64 0#64 = .error (.wrongPort 0x20#8) := by decide

/-- The match and mask columns of R78, whole, against the decoder's. -/
theorem test_opcode_map :
    opcodeMap = Op.all.map fun o => { op := o, port := o.port, pattern := o.match0, mask := o.mask0 } := by decide

/-! ### Encoding and the assembler -/

theorem test_encode_words :
    encodeWord0 (.fbSet (-1) 5 true) = 0x0200000001FFF005#64 ∧
    encode (.encDrawImage 120 60 200 100 0 0) = (0x120007803C0C8064#64, 0xFF00000000000000#64) ∧
    encodeWord0 (.dbTick 281474976710655) = 0x2000FFFFFFFFFFFF#64 := by decide
theorem test_assemble_set : assemble "fb.set 2047, -2048, on".toList = some [0x02000000017FF800#64] := by decide
theorem test_assemble_draw :
    assemble "enc.draw 0, 0, 2, 1, 5, 5".toList = some [0x1200000000002001#64, 0xFF00000000005005#64] := by decide
theorem test_assemble_hexadecimal : assemble "db.tick 0x3E8".toList = some [0x20000000000003E8#64] := by decide
theorem test_assemble_out_of_range : assemble "fb.set 2048, 0, on".toList = none := by decide

/-! ### Response words (L2) -/

theorem test_response_words :
    Reply.ok.word = 0x0000000000000000#64 ∧ (Reply.pixel true).word = 0x0000000000000001#64 ∧
    (Reply.bounds 128 64).word = 0x0000000080000040#64 ∧ (Reply.bounds 16 8).word = 0x0000000010000008#64 ∧
    (Reply.errIo 9 12).word = 0x010000000000000C#64 ∧ (Reply.errIllegal 0x23#8).word = 0x0200000000000023#64 := by
  decide

/-! ### Framebuffer (L2) -/

theorem test_fbSet_bytes :
    (after (.fbSet 0 0 true) ref).enc.fb = [(0, 0x01#8)] ∧ (after (.fbSet 0 7 true) ref).enc.fb = [(0, 0x80#8)] ∧
    (after (.fbSet 0 8 true) ref).enc.fb = [(128, 0x01#8)] ∧ (after (.fbSet 3 10 true) ref).enc.fb = [(131, 0x04#8)] ∧
    (after (.fbSet 127 63 true) ref).enc.fb = [(1023, 0x80#8)] := by decide
theorem test_fbSet_off_and_out_of_bounds :
    (after (.fbSet 0 3 false) (holding ref [(0, 0xFF#8)])).enc.fb = [(0, 0xF7#8)] ∧
    (after (.fbSet (-1) 5 true) ref).enc.fb = [] ∧ (after (.fbSet 128 0 true) ref).enc.fb = [] ∧
    (after (.fbSet 0 64 true) ref).enc.fb = [] ∧ (after (.fbSet (-1) 5 true) ref).enc.responses = [.ok] := by decide
theorem test_fbGet :
    (after (.fbGet 0 0) (holding ref [(0, 0x01#8)])).enc.responses = [.pixel true] ∧
    (after (.fbGet 0 1) (holding ref [(0, 0x01#8)])).enc.responses = [.pixel false] ∧
    (after (.fbGet 128 0) (holding ref [(0, 0x01#8)])).enc.responses = [.pixel false] := by decide
theorem test_fbClear :
    (after (.fbClear true) tiny).enc.fb = [(0, 0xFF#8), (1, 0xFF#8)] ∧
    (after (.fbClear false) (holding tiny [(0, 0xFF#8), (1, 0x01#8)])).enc.fb = [] := by decide
theorem test_fbBounds : (after .fbBounds ref).enc.responses = [.bounds 128 64] := by decide

/-! ### Init, update, power off (L2, with the small geometry) -/

theorem test_encUpdate_trace :
    (after .encUpdate (answering (holding tiny [(0, 0x01#8)]) (List.replicate 16 .ok))).enc.trace.map EncEvent.prim =
      [.lineWrite .dc .low, .lineWrite .cs .low, .busTx [0xB0#8], .lineWrite .cs .high,
       .lineWrite .dc .low, .lineWrite .cs .low, .busTx [0x02#8], .lineWrite .cs .high,
       .lineWrite .dc .low, .lineWrite .cs .low, .busTx [0x10#8], .lineWrite .cs .high,
       .lineWrite .dc .high, .lineWrite .cs .low, .busTx [0xFE#8, 0xFF#8], .lineWrite .cs .high] := by decide
theorem test_encUpdate_fails_at_once :
    (after .encUpdate (answering tiny [.ok, .err 7])).enc.responses = [.errIo 7 1] ∧
    (after .encUpdate (answering tiny [.ok, .err 7])).enc.out = { dc := .low, rst := .unknown, cs := .unknown } ∧
    (after .encUpdate (answering tiny [.ok, .err 7])).enc.trace.length = 2 := by decide
theorem test_encInit_error_in_pulse :
    (after .encInit (answering tiny [.ok, .err 7])).enc.responses = [.errIo 7 2] ∧
    (after .encInit (answering tiny [.ok, .err 7])).enc.out.rst = .unknown ∧
    (after .encInit (answering tiny [.ok, .err 7])).enc.trace.map EncEvent.prim =
      [.lineWrite .rst .high, .delay (.rational 1), .lineWrite .rst .low] := by decide
theorem test_encInit_ok :
    (after .encInit (answering tiny (List.replicate 47 .ok))).enc.responses = [.ok] ∧
    (after .encInit (answering tiny (List.replicate 47 .ok))).enc.trace.length = 6 + 4 * 11 ∧
    (after .encInit (answering tiny (List.replicate 47 .ok))).enc.out = { dc := .low, rst := .high, cs := .high } := by
  decide
theorem test_encPowerOff :
    (after .encPowerOff (answering tiny [.ok, .ok, .err 7])).enc.responses = [.errIo 7 2] ∧
    (after .encPowerOff (answering tiny [.ok, .ok, .err 7])).enc.out.cs = .low ∧
    (after .encPowerOff (answering tiny [.ok, .ok, .ok, .ok])).enc.trace.map EncEvent.prim =
      [.lineWrite .dc .low, .lineWrite .cs .low, .busTx [0xAE#8], .lineWrite .cs .high] := by decide

/-! ### Draw image (L2: V-D1 to V-D5b, V-D6, V-D8, V-D10, V-D14) -/

theorem test_threshold :
    [(⟨0, 0, 0⟩ : Rgb), ⟨127, 127, 127⟩, ⟨128, 128, 127⟩, ⟨128, 128, 128⟩, ⟨255, 255, 255⟩, ⟨255, 0, 128⟩,
      ⟨255, 1, 128⟩].map (thresholdOn refCfg) = [true, true, true, false, false, true, false] := by decide
theorem test_threshold_16 :
    [(⟨32767, 32767, 32767⟩ : Rgb), ⟨32768, 32768, 32767⟩, ⟨32768, 32768, 32768⟩, ⟨32896, 32896, 32639⟩].map
      (thresholdOn { refCfg with channelBits := 16 }) = [true, true, false, false] := by decide
theorem test_draw_two_pixels :
    drawInto refCfg blackAndWhite [] 0 0 2 1 5 5 = [(0, 0x01#8)] := by decide
theorem test_draw_fails_and_keeps_pixels :
    (after (.encDrawImage 0 0 2 1 5 5)
      (answering { tiny with image := blackAndWhite } (List.replicate 14 .ok ++ [.err 7]))).enc.responses =
      [.errIo 7 14] ∧
    (after (.encDrawImage 0 0 2 1 5 5)
      (answering { tiny with image := blackAndWhite } (List.replicate 14 .ok ++ [.err 7]))).enc.fb =
      [(0, 0x01#8)] := by decide
theorem test_overlap_clipped : (overlap refCfg 120 60 200 100).length = 32 ∧ overlap refCfg 5 5 5 10 = [] ∧
    overlap refCfg 200 0 300 10 = [] ∧ overlap refCfg (-1) (-1) 1 1 = [(0, 0)] := by decide

/-! ### Debouncing (L2) -/

/-- V-B10: two lines press at one tick, in line order. -/
theorem test_tick_two_clicks :
    (after (.dbTick 0) (polling ref [.high, .low, .high, .high, .low, .high, .high])).db.trace =
      [.readLevel .up .high, .readLevel .down .low, .emit .down .click 0, .readLevel .left .high,
       .readLevel .right .high, .readLevel .button1 .low, .emit .button1 .click 0, .readLevel .button2 .high,
       .readLevel .button3 .high] := by decide
/-- V-B1 and V-B12: a held tick at `e = 200`, at `e = 250` and at `e = -100`. -/
theorem test_tick_hold_window :
    lineEmits .up (after (.dbTick 200) (pollingUp ref (upReads .low) ⟨true, some 0⟩)).db.trace = [(.hold, 200)] ∧
    lineEmits .up (after (.dbTick 250) (pollingUp ref (upReads .low) ⟨true, some 0⟩)).db.trace = [] ∧
    lineEmits .up (after (.dbTick 200) (pollingUp ref (upReads .low) ⟨true, some 300⟩)).db.trace = [] := by decide
/-- V-B9: a line that is active high. -/
theorem test_mapping_active_high :
    mapLevel { refCfg with activeLow := 0x7B#7 } .left .high = true ∧
    mapLevel { refCfg with activeLow := 0x7B#7 } .left .low = false ∧
    mapLevel { refCfg with activeLow := 0x7B#7 } .up .low = true := by decide
theorem test_dbStart : (after .dbStart ref).db.running = true ∧ (after .dbStart ref).db.trace = [] := by decide
theorem test_dbStop :
    (after .dbStop (polling ref [])).db.running = false ∧
    (after .dbStop (polling ref [])).db.responses = [⟨.host, .ok⟩] := by decide
theorem test_dbSetPoll :
    (after (.dbSetPoll 100) ref).db.poll = 100 ∧
    (after (.dbSetPoll 0) ref).db.poll = 50 ∧
    (after (.dbSetPoll 0) ref).db.responses = [⟨.host, .errIllegal 0x23#8⟩] := by decide

/-! ### Steps -/

/-- V-X2, on a busy encoder: refused at once, `ENC.busy` untouched. -/
theorem test_step_illegal :
    stepped { presented ref [request .encoder 0x1100000000000001#64 0#64] with
        enc := { ref.enc with busy := true } } =
      { ref with enc := { ref.enc with busy := true, responses := [.errIllegal 0x11#8] } } := by decide
/-- A word presented as the host numbers it is performed by the next step. -/
theorem test_step_withFetchWord :
    (stepped (ref.withFetchWord 64 0x020000000100300A)).enc.fb = [(131, 0x04#8)] ∧
    (stepped ((answering ref [.err 7]).withFetchWord 128 0xFF000000000050051200000000002001)).enc.responses = [.errIo 7 0] ∧
    decodeTableWord 128 0xFF000000000050051200000000002001 = some (.encDrawImage 0 0 2 1 5 5) := by decide
/-- The reset state of the machine runs a presented request, whatever its free configuration is. -/
theorem test_step_from_reset :
    (stepped (State.reset.withFetchWord 64 0x2100000000000000)).db.running = true := by decide

/-! ### Witnesses: the encoding -/

theorem test_witness_EncodeThenDecode :
    (Instr.encDrawImage (-2048) 2047 (-1) 0 2047 (-2048)).wellFormed = true ∧ (Instr.fbSet 2047 (-2048) false).wellFormed = true ∧
    (Instr.fbGet (-2048) 2047).wellFormed = true ∧ (Instr.dbTick (2 ^ 48 - 1)).wellFormed = true ∧
    (Instr.dbSetPoll 1).wellFormed = true ∧ (Instr.fbClear true).wellFormed = true := by decide
theorem test_witness_DecodeThenEncode :
    decodeOn .encoder 0x1200FFFFFF001001#64 0xFF00000000000000#64 = .ok (.encDrawImage (-1) (-1) 1 1 0 0) := by decide
theorem test_witness_LegalRequestsMatchTheOpcodeMap :
    decodeOn .debounce 0x2300000000000001#64 0#64 = .ok (.dbSetPoll 1) ∧
    decodeOn .debounce 0x2300000000000000#64 0#64 = .error .zeroInterval := by decide
theorem test_witness_IllegalRequestIsRefused :
    ¬ legalOn .encoder 0x1100000000000001#64 0#64 ∧ ¬ legalOn .debounce 0x2300000000000000#64 0#64 ∧
    ¬ legalOn .debounce 0x1100000000000000#64 0#64 ∧ ¬ legalOn .encoder 0x1200000000000000#64 0#64 := by
  unfold legalOn matchesRow
  decide
theorem test_witness_ResponseWordLayout :
    16777215 < 2 ^ 24 ∧ 281474976710655 < 2 ^ 48 ∧ (Reply.bounds 16777215 16777215).word = 0x0000FFFFFFFFFFFF#64 ∧
    (Reply.errIo 0 281474976710655).word = 0x0100FFFFFFFFFFFF#64 := by decide
theorem test_witness_AssembledOperandsFit :
    assembleTerm "fb.get -2048, 2047".toList = some (.fbGet (-2048) 2047) ∧
    mnemonicOp (mnemonicText "fb.get 2048, 0".toList) = some .fbGet ∧
    termOf .fbGet (splitOperands (operandText "fb.get 2048, 0".toList)) = some (.fbGet 2048 0) ∧
    (Instr.fbGet 2048 0).fitsFields = false ∧ (Instr.fbGet (-2049) 0).fitsFields = false ∧
    mnemonicOp (mnemonicText "fb.get 1".toList) = some .fbGet ∧
    termOf .fbGet (splitOperands (operandText "fb.get 1".toList)) = none := by decide
/-- The syntax of R86, spelled out. -/
theorem test_sourceLine : sourceLine (.fbSet 2047 (-2048) true) = "fb.set 2047, -2048, on".toList := by decide

/-! ### Witnesses: the step -/

/-- One request on each port, ready. -/
def twoRequests : State :=
  presented ref [request .encoder 0x0400000000000000#64 0#64, request .debounce 0x2100000000000000#64 0#64]

theorem test_witness_StepPerformsTheDecodedRequest :
    twoRequests.pending = [request .encoder 0x0400000000000000#64 0#64, request .debounce 0x2100000000000000#64 0#64] ∧
    decodeOn .encoder 0x0400000000000000#64 0#64 = .ok .fbBounds ∧ portFree twoRequests .encoder = true ∧
    decodeOn .debounce 0x2100000000000000#64 0#64 = .ok .dbStart ∧ portFree twoRequests .debounce = true := by decide
theorem test_witness_PresentedWordIsPerformed : decodeTableWord 64 0x2100000000000000 = some .dbStart := by decide

/-- Both ports taken. -/
def bothTaken : State :=
  { twoRequests with enc := { twoRequests.enc with busy := true }, db := { twoRequests.db with lock := .held } }

theorem test_witness_RequestWaitsForItsPort :
    ∀ r ∈ bothTaken.pending, ∃ i, decodeOn r.port r.word0 r.word1 = .ok i ∧ portFree bothTaken r.port = false := by
  intro r hr
  simp only [bothTaken, twoRequests, presented, List.mem_cons, List.not_mem_nil, or_false] at hr
  rcases hr with rfl | rfl
  · exact ⟨.fbBounds, by decide, by decide⟩
  · exact ⟨.dbStart, by decide, by decide⟩
theorem test_witness_OneResponsePerRequest :
    takeReady twoRequests twoRequests.pending =
      some (request .encoder 0x0400000000000000#64 0#64, [request .debounce 0x2100000000000000#64 0#64]) ∧
    step twoRequests = .next (stepped twoRequests) := ⟨by decide, rfl⟩
theorem test_witness_ConfigurationIsReadOnly : step twoRequests = .next (stepped twoRequests) := rfl
theorem test_witness_TracesOnlyGrow :
    ∃ t, step (presented (answering tiny [.ok, .err 7]) [request .encoder 0x1100000000000000#64 0#64]) = .next t ∧
      t.enc.trace.length = 2 := ⟨_, rfl, by decide⟩
theorem test_witness_SubBlocksShareNoState :
    Instr.encUpdate.op.port = .encoder ∧ ref.cfg = (polling ref []).cfg ∧ ref.enc = (polling ref []).enc ∧
    ref.image = (polling ref []).image ∧ ref ≠ polling ref [] ∧
    (Instr.dbTick 0).op.port = .debounce ∧ ref.cfg = (holding ref [(0, 1#8)]).cfg ∧
    ref.db = (holding ref [(0, 1#8)]).db ∧ ref ≠ holding ref [(0, 1#8)] := by decide
theorem test_witness_OperationsKeepToTheirState :
    Instr.encInit.op.port = .encoder ∧ (Instr.dbTick 5).op.port = .debounce ∧ Instr.dbStop.op ≠ .dbTick ∧
    (Instr.dbTick 5).op ≠ .dbStart ∧ (Instr.dbTick 5).op ≠ .dbStop ∧ (Instr.dbTick 5).op ≠ .dbSetPoll := by decide

/-! ### Witnesses: reset -/

/-- A height that is no multiple of 8. -/
def unevenCfg : Params := { refCfg with height := 60 }

/-- No chip-select line was supplied. -/
def unwiredCfg : Params := { refCfg with wiring := { bus := true, dc := true, rst := true, cs := false, inputs := 0x7F#7 } }

theorem test_witness_ResetLeavesTheTableOfR221 :
    refCfg.Valid ∧ ¬ unevenCfg.Valid ∧ ¬ unwiredCfg.Valid := ⟨by decide, by decide, by decide⟩

theorem test_witness_ResetConfigurationIsValid : refCfg.Valid ∧ { refCfg with rstD1 := .real 7 }.Valid ∧
    ¬ { refCfg with rstD1 := .rational 0 }.Valid ∧ { refCfg with rstD3 := .rational 0 }.Valid :=
  ⟨by decide, by decide, by decide, by decide⟩

/-! ### Witnesses: the framebuffer -/

theorem test_witness_EveryPixelIsOneBitOfOneByte :
    refCfg.ValidGeometry ∧ inB refCfg 0 0 = true ∧ inB refCfg 127 63 = true ∧ inB refCfg 128 0 = false ∧
    inB refCfg 0 64 = false ∧ inB refCfg (-1) 0 = false ∧ inB refCfg 0 (-1) = false ∧
    1023 < refCfg.width * (refCfg.height / 8) := by decide
theorem test_witness_FbClearSetsEveryByte :
    ref.cfg.ValidGeometry ∧ inB ref.cfg 127 63 = true ∧ 1023 < ref.cfg.bytes ∧ ref.cfg.bytes ≤ 1024 := by decide
theorem test_witness_FbSetChangesAtMostOneBit :
    Memory.wf (holding ref [(0, 0xFF#8)]).enc.fb = true ∧ inB ref.cfg 0 3 = true ∧ pixelIndex ref.cfg 0 3 = 0 ∧
    inB ref.cfg 128 0 = false := by decide
theorem test_witness_FbGetAnswersThePixel :
    (0 ≤ (127 : Int) ∧ (127 : Int) < ref.cfg.width ∧ 0 ≤ (63 : Int) ∧ (63 : Int) < ref.cfg.height) ∧
    ¬ (0 ≤ (127 : Int) ∧ (127 : Int) < ref.cfg.width ∧ 0 ≤ (64 : Int) ∧ (64 : Int) < ref.cfg.height) := by decide
theorem test_witness_PixelKeepsItsValueUntilWritten :
    FramebufferInv ref ∧ ref.cfg.ValidGeometry ∧ inB ref.cfg 3 10 = true ∧
    ∀ i ∈ [Instr.fbSet 3 11 false, .encUpdate, .encDrawImage 4 0 9 9 0 0, .dbTick 7],
      writesPixel ref.cfg 3 10 i = false := by
  unfold FramebufferInv
  decide
theorem test_witness_SetThenUnsetRestoresOnlyOffPixels :
    Memory.wf (holding ref [(0, 0x01#8)]).enc.fb = true ∧ inB ref.cfg 0 0 = true ∧
    getPixel ref.cfg (holding ref [(0, 0x01#8)]).enc.fb 0 0 = true ∧
    getPixel ref.cfg ref.enc.fb 0 0 = false := by decide
theorem test_witness_PixelWritesRepeatAndCommute :
    Memory.wf ref.enc.fb = true ∧ inB ref.cfg 0 0 = true ∧ inB ref.cfg 0 1 = true ∧
    ¬ ((0 : Int) = 0 ∧ (0 : Int) = 1) := by decide
theorem test_witness_OnlyThreeOperationsWriteTheFramebuffer :
    ∃ t, exec .encInit (answering tiny [.err 7]) = .next t ∧ Instr.encInit.op ≠ .fbClear ∧ Instr.encInit.op ≠ .fbSet ∧
      Instr.encInit.op ≠ .encDrawImage := ⟨_, rfl, by decide⟩
theorem test_witness_FramebufferStaysCanonical :
    twoRequests.cfg.ValidGeometry ∧ FramebufferInv twoRequests ∧ step twoRequests = .next (stepped twoRequests) :=
  ⟨by decide, ⟨by decide, by decide⟩, rfl⟩

/-! ### Witnesses: the display protocol -/

theorem test_witness_EncInitPerformsPulseAndSequence :
    tiny.cfg.ValidInit ∧ (answering tiny (List.replicate 47 .ok)).enc.answers =
      List.replicate (3 + 4 * tiny.cfg.initSeq.length) .ok ++ [] := by decide
theorem test_witness_EncInitEmitsInitSeqExactly :
    ∃ t, exec .encInit (answering tiny (List.replicate 47 .ok)) = .next t ∧ t.enc.responses = [.ok] :=
  ⟨_, rfl, by decide⟩
theorem test_witness_EncUpdateSendsEveryPage :
    (answering ref (List.replicate 128 .ok)).enc.answers = List.replicate (16 * ref.cfg.pages) .ok ++ [] ∧
    0 < ref.cfg.pages ∧ 7 < ref.cfg.pages ∧ ({ refCfg with height := 0 } : Params).pages = 0 := by decide
/-- At index 0, at the data transfer of the page and at its last primitive. -/
theorem test_witness_EncUpdateStopsAtTheFirstError :
    (after .encUpdate (answering tiny [.err 7])).enc.responses = [.errIo 7 0] ∧
    (after .encUpdate (answering tiny (List.replicate 14 .ok ++ [.err 7]))).enc.responses = [.errIo 7 14] ∧
    (after .encUpdate (answering tiny (List.replicate 15 .ok ++ [.err 7]))).enc.responses = [.errIo 7 15] := by decide
theorem test_witness_RepeatedUpdateLeavesTheSameEvents :
    (answering tiny [.ok]).cfg = (answering (polling tiny []) [.ok]).cfg ∧
    (answering tiny [.ok]).enc.fb = (answering (polling tiny []) [.ok]).enc.fb ∧
    (answering tiny [.ok]).enc.answers = (answering (polling tiny []) [.ok]).enc.answers ∧
    (answering tiny [.ok]).enc.draws = (answering (polling tiny []) [.ok]).enc.draws := by decide
theorem test_witness_DrawImageWritesTheOverlapThenUpdates :
    Memory.wf tiny.enc.fb = true ∧ inB tiny.cfg 0 0 = true ∧ inB tiny.cfg 1 7 = true := by decide
theorem test_witness_PowerOffSendsOneCommand :
    (answering tiny [.ok, .ok, .ok, .ok, .err 7]).enc.answers = .ok :: .ok :: .ok :: .ok :: [.err 7] := by decide
theorem test_witness_OperationsPerformTheirPrimitives :
    Instr.encInit.op.port = .encoder ∧ (Instr.encDrawImage 0 0 1 1 0 0).op.port = .encoder ∧
    (Instr.fbClear true).op.port = .encoder := by decide
/-- A failed write of `DC` and a failed bus transfer. -/
theorem test_witness_FailedWriteLeavesTheLineUnknown :
    (after .encPowerOff (answering tiny [.err 7])).enc.responses = [.errIo 7 0] ∧
    (after .encPowerOff (answering tiny [.err 7])).enc.out.dc = .unknown ∧
    (after .encPowerOff (answering tiny [.ok, .ok, .err 7])).enc.responses = [.errIo 7 2] := by decide
theorem test_witness_SuccessLeavesChipSelectHigh :
    tiny.cfg.Valid ∧ (after .encUpdate (answering tiny (List.replicate 16 .ok))).enc.responses = [.ok] := by decide
theorem test_witness_EncoderTraceLengths :
    Instr.encPowerOff.op.port = .encoder ∧
    exec .encPowerOff (answering tiny [.ok, .err 7]) = .next (after .encPowerOff (answering tiny [.ok, .err 7])) :=
  ⟨by decide, rfl⟩
theorem test_witness_OnlyInitWritesTheResetLine :
    exec .encPowerOff tiny = .next (after .encPowerOff tiny) ∧ Instr.encPowerOff ≠ .encInit := ⟨rfl, by decide⟩

/-- A block that has sent its panel-off byte and is asked to send it again. -/
def secondPowerOff : State :=
  presented (answering (after .encPowerOff (answering tiny [.ok, .ok, .ok, .ok])) [.ok, .ok, .ok, .ok])
    [request .encoder 0x1300000000000000#64 0#64]

theorem test_witness_OutputLinesFollowTheTrace :
    OutInv secondPowerOff ∧ step secondPowerOff = .next (stepped secondPowerOff) := by
  refine ⟨?_, rfl⟩
  unfold OutInv
  decide
theorem test_witness_BusTransfersStayBracketed :
    BusInv secondPowerOff ∧ busTransfers Encoder.fresh.out secondPowerOff.enc.trace = [(.low, .low, [0xAE#8])] ∧
    step secondPowerOff = .next (stepped secondPowerOff) := by
  refine ⟨?_, by decide, rfl⟩
  unfold BusInv
  decide
theorem test_witness_PortsAreFreeBetweenSteps :
    PortsInv twoRequests ∧ step twoRequests = .next (stepped twoRequests) := ⟨⟨rfl, rfl⟩, rfl⟩

/-! ### Witnesses: debouncing -/

theorem test_witness_LevelMappingFollowsThePolarity :
    refCfg.activeLow.getLsbD Line.button3.index = true ∧
    ({ refCfg with activeLow := 0x7B#7 } : Params).activeLow.getLsbD Line.left.index = false := by decide
/-- At the threshold and one below it. -/
theorem test_witness_PressPhaseIsDerived :
    ButtonState.fresh.pressed = false ∧ ((199 : Nat) : Int) - (0 : Nat) < (200 : Nat) ∧
    ((200 : Nat) : Int) ≤ ((200 : Nat) : Int) - (0 : Nat) ∧
    pressPhase 200 199 .up ⟨true, some 0⟩ = .pressedBeforeThreshold ∧
    pressPhase 200 200 .up ⟨true, some 0⟩ = .pressedAfterThreshold := by decide
theorem test_witness_TickGivesEachLineItsTransition :
    (polling ref (upReads .low)).db.running = true ∧
    (polling ref (upReads .low)).db.levels = upReads .low ++ [] ∧ (upReads .low).length = 7 := by decide
theorem test_witness_TickWhileStoppedDoesNothing : ref.db.running = false := by decide
theorem test_witness_EdgesEmitClickAndRelease :
    (pollingUp ref (upReads .low) ⟨false, none⟩).db.running = true ∧
    ((after (.dbTick 9) (pollingUp ref (upReads .low) ⟨false, none⟩)).db.bs.get .up) = ⟨true, some 9⟩ ∧
    ((after (.dbTick 9) (pollingUp ref (upReads .high) ⟨true, some 4⟩)).db.bs.get .up) = ⟨false, some 4⟩ := by decide
/-- At both ends of the window, inside and outside. -/
theorem test_witness_HoldFiresExactlyInItsWindow :
    [199, 200, 249, 250].map (fun now =>
      lineEmits .up (after (.dbTick now) (pollingUp ref (upReads .low) ⟨true, some 0⟩)).db.trace) =
      [[], [(.hold, 200)], [(.hold, 249)], []] ∧
    ((after (.dbTick 200) (pollingUp ref (upReads .low) ⟨true, some 0⟩)).db.bs.get .up).pressed = true := by decide
/-- Two ticks at `P = 50` with `T = 50`: the premises hold, both ticks read line 0 pressed, and the hold comes at tick 1. -/
theorem test_witness_HoldFiresOncePerPress :
    (execAll (idealTicks 0 50 1)
      (polling { ref with cfg := { refCfg with hold := 50 } } (upReads .low ++ upReads .low))).map
        (fun t => lineEmits .up t.db.trace) = some [(.click, 0), (.hold, 50)] ∧
    0 < ref.db.poll ∧ (ref.db.bs.get .up).pressed = false := by decide
theorem test_witness_SetPollWritesTheInterval : 0 < 1 := by decide
/-- V-B15: line 0 pressed at tick 0, a stop, a start, then a tick at 500 that reads it released (log entry 19). -/
theorem test_release_seen_after_restart :
    (execAll [.dbTick 0, .dbStop, .dbStart, .dbTick 500] (polling ref (upReads .low ++ upReads .high))).map
      (fun t => lineEmits .up t.db.trace) = some [(.click, 0), (.release, 500)] := by decide
theorem test_witness_StoppedTicksLeaveNoMark : (polling ref (upReads .low)).db.running = true := by decide

/-- A running block with line 0 pressed since time 5 and a tick presented. -/
def pressedSince : State :=
  presented { after (.dbTick 5) (polling ref (upReads .low ++ upReads .high)) with waits := 1 }
    [request .debounce 0x2000000000000037#64 0#64]

theorem test_pressedSince : (pressedSince.db.bs.get .up) = ⟨true, some 5⟩ ∧ pressedSince.db.lock = .free := by decide
theorem test_witness_EventGrammarIsKept :
    GrammarInv pressedSince ∧ step pressedSince = .next (stepped pressedSince) := by
  refine ⟨fun l => ?_, rfl⟩
  cases l <;> decide
theorem test_witness_StartIsTheLastPressEdge :
    StartInv pressedSince ∧ step pressedSince = .next (stepped pressedSince) := by
  refine ⟨fun l => ?_, rfl⟩
  cases l <;> decide
theorem test_witness_PressedLineHasAStart : GrammarInv pressedSince ∧ StartInv pressedSince := by
  constructor <;> intro l <;> cases l <;> decide
theorem test_witness_PollIntervalStaysPositive :
    PollInv pressedSince ∧ step pressedSince = .next (stepped pressedSince) := by
  refine ⟨?_, rfl⟩
  unfold PollInv
  decide

end Sys2Proof.Tests
end

section
/-! PROOFS of the statements of the family 00_scope.md: the free configuration (R9), the derived view of a line (R16), the
independence of the two sub-blocks (R3), the frame of every operation (R29, R37), and the primitives an encoder
operation performs (R191, R195). -/

namespace Sys2Proof

/-! ### The free configuration (R9) -/

theorem Config.params_pages : Config.params.pages = Config.freePages.val + 1 :=
  Nat.mul_div_cancel_left _ (by decide)

/-- `PAGE_SEL` of the free configuration sends different pages to different bytes: the pages are fewer than 257, and the
rest is a permutation of the bytes. -/
theorem Config.params_pageSel_nodup : Config.params.pageSel.Nodup := by
  refine (List.nodup_map_iff_inj_on List.nodup_range).2 fun p hp q hq heq => ?_
  have hpages := Config.freePages.isLt
  rw [List.mem_range] at hp hq
  have hbyte : BitVec.ofNat 8 p = BitVec.ofNat 8 q := Config.freePageSel.injective heq
  have hmod : p % 256 = q % 256 := by simpa using congrArg BitVec.toNat hbyte
  omega

theorem Config.params_validGeometry : Config.params.ValidGeometry :=
  ⟨Nat.succ_pos _, Nat.mul_pos (by decide) (Nat.succ_pos _), Nat.mul_mod_right 8 _,
    by rw [Config.params_pages, Config.params, List.length_map, List.length_range], Config.params_pageSel_nodup⟩

theorem Config.params_validInit : Config.params.ValidInit := by
  refine ⟨rfl, fun seg hseg => ?_, rfl⟩
  obtain ⟨j, -, rfl⟩ := List.mem_map.1 hseg
  exact List.cons_ne_nil _ _

theorem Config.params_validScalars : Config.params.ValidScalars := by
  refine ⟨Nat.succ_pos _, rfl, rfl, ?_, rfl, ?_⟩
  · cases h : Config.freeNoLastDelay <;> simp [Config.params, h, Duration.isNonneg]
  · cases h : Config.freeWideChannels <;> simp [Config.params, h]

theorem Config.params_valid : Config.params.Valid :=
  ⟨Config.params_validGeometry, Config.params_validInit, Config.params_validScalars, rfl, rfl, rfl, rfl, rfl⟩

end Sys2Proof

namespace Sys2Proof.Machine

/-! ### The derived view of a line (R16) -/

/-- A start that is set is what a tick reads. -/
theorem startOf_of_some {l : Line} {b : ButtonState} {start : Nat} (h : b.start = some start) :
    startOf l b = start := by
  rw [startOf, h, Option.getD_some]

theorem pressPhase_of_not_pressed (hold now : Nat) (l : Line) {b : ButtonState} (h : b.pressed = false) :
    pressPhase hold now l b = .idle := by
  simp [pressPhase, h]

/-- A pressed line's phase is the comparison of the time since its start with the threshold. -/
theorem pressPhase_of_pressed (hold now : Nat) (l : Line) {b : ButtonState} {start : Nat} (hp : b.pressed = true)
    (hs : b.start = some start) :
    pressPhase hold now l b =
      if (now : Int) - start < hold then .pressedBeforeThreshold else .pressedAfterThreshold := by
  rw [pressPhase, if_pos hp, startOf_of_some hs, elapsed]

/-- Settles O48: the two clauses for a pressed line are the two branches of the comparison with `T`. -/
theorem pressPhaseIsDerived : Obligations.PressPhaseIsDerived := by
  intro hold now start l b
  refine ⟨pressPhase_of_not_pressed hold now l, fun hp hs hlt => ?_, fun hp hs hle => ?_⟩
  · rw [pressPhase_of_pressed hold now l hp hs, if_pos hlt]
  · rw [pressPhase_of_pressed hold now l hp hs, if_neg (Int.not_lt.2 hle)]

/-! ### Reset gives a valid configuration (R9, R220) -/

/-- Settles O19: the free configuration is valid group by group, and a valid one's durations are compared as reals. -/
theorem resetConfigurationIsValid : Obligations.ResetConfigurationIsValid :=
  ⟨⟨Config.params_valid, if_pos Config.params_valid⟩, fun _ hc => hc.durations⟩

/-! ### The sub-blocks share no state (R3, R61) -/

/-- What an encoder operation does to the encoder is a function of the configuration, the encoder and the image. -/
theorem exec_encoder_congr {i : Instr} {s s' : State} (hp : i.op.port = .encoder) (hcfg : s.cfg = s'.cfg)
    (henc : s.enc = s'.enc) (himg : s.image = s'.image) :
    ∃ t t', exec i s = .next t ∧ exec i s' = .next t' ∧ t.enc = t'.enc ∧ t.db = s.db ∧ t'.db = s'.db := by
  obtain ⟨cfg, enc, db, pending, image, waits⟩ := s
  obtain ⟨cfg', enc', db', pending', image', waits'⟩ := s'
  dsimp only at hcfg henc himg
  subst hcfg henc himg
  cases i with
  | fbClear | fbSet | fbGet | fbBounds | encInit | encUpdate | encDrawImage | encPowerOff =>
    exact ⟨_, _, rfl, rfl, rfl, rfl, rfl⟩
  | dbTick | dbStart | dbStop | dbSetPoll => exact nomatch hp

/-- What a debounce operation does to the debounce sub-block is a function of the configuration and that sub-block. -/
theorem exec_debounce_congr {i : Instr} {s s' : State} (hp : i.op.port = .debounce) (hcfg : s.cfg = s'.cfg)
    (hdb : s.db = s'.db) :
    ∃ t t', exec i s = .next t ∧ exec i s' = .next t' ∧ t.db = t'.db ∧ t.enc = s.enc ∧ t'.enc = s'.enc := by
  obtain ⟨cfg, enc, db, pending, image, waits⟩ := s
  obtain ⟨cfg', enc', db', pending', image', waits'⟩ := s'
  dsimp only at hcfg hdb
  subst hcfg hdb
  cases i with
  | dbTick | dbStart | dbStop => exact ⟨_, _, rfl, rfl, rfl, rfl, rfl⟩
  | dbSetPoll p =>
    refine ⟨_, _, exec_dbSetPoll p _, exec_dbSetPoll p _, ?_⟩
    by_cases h : p = 0
    · simp only [if_pos h]; exact ⟨rfl, rfl, rfl⟩
    · simp only [if_neg h]; exact ⟨rfl, rfl, rfl⟩
  | fbClear | fbSet | fbGet | fbBounds | encInit | encUpdate | encDrawImage | encPowerOff => exact nomatch hp

/-- Settles O16: two states that agree on what an operation reads get the same sub-block from it. -/
theorem subBlocksShareNoState : Obligations.SubBlocksShareNoState :=
  ⟨fun _ _ _ hp hcfg henc himg => exec_encoder_congr hp hcfg henc himg,
    fun _ _ _ hp hcfg hdb => exec_debounce_congr hp hcfg hdb⟩

/-! ### The frame of every operation (R29, R30, R33, R36, R37) -/

theorem runEncOp_answers_suffix (ps : List Prim) (s : State) :
    (runEncOp ps s).enc.answers <:+ s.enc.answers :=
  runPrims_answers_suffix ps s.enc.begin

theorem exec_encoder_answers_suffix {i : Instr} {s t : State} (hp : i.op.port = .encoder) (h : exec i s = .next t) :
    t.enc.answers <:+ s.enc.answers := by
  cases i with
  | fbClear | fbSet | fbGet | fbBounds => cases h; exact List.suffix_refl _
  | encInit | encUpdate | encPowerOff => cases h; exact runEncOp_answers_suffix _ s
  | encDrawImage => cases h; exact runEncOp_answers_suffix _ (s.withFb _)
  | dbTick | dbStart | dbStop | dbSetPoll => exact nomatch hp

/-- A tick moves neither the running flag nor the interval, polling or not. -/
theorem exec_dbTick_frame {now : Nat} {s t : State} (h : exec (.dbTick now) s = .next t) :
    t.db.levels <:+ s.db.levels ∧ t.db.running = s.db.running ∧ t.db.poll = s.db.poll := by
  cases h
  by_cases hr : s.db.running = true
  · obtain ⟨_, _, _, _, hpoll, hrunning, _, _⟩ := pollAll_cases s.cfg now s.db
    simp only [respondDb_levels, respondDb_running, respondDb_poll, State.withDb_db, if_pos hr]
    exact ⟨foldl_pollLine_levels_suffix s.cfg now Line.all s.db, hrunning, hpoll⟩
  · simp [hr]

/-- Of the debounce operations only a tick reads levels and moves the file and the trace, only a start or a stop moves
the running flag, and only `DB_SET_POLL` the interval. -/
theorem exec_debounce_frame {i : Instr} {s t : State} (hp : i.op.port = .debounce) (h : exec i s = .next t) :
    t.db.levels <:+ s.db.levels ∧
      (i.op ≠ .dbTick → t.db.bs = s.db.bs ∧ t.db.trace = s.db.trace ∧ t.db.levels = s.db.levels ∧
        t.db.draws = s.db.draws) ∧
      (i.op ≠ .dbStart → i.op ≠ .dbStop → t.db.running = s.db.running) ∧
      (i.op ≠ .dbSetPoll → t.db.poll = s.db.poll) := by
  cases i with
  | dbTick now =>
    obtain ⟨hlevels, hrunning, hpoll⟩ := exec_dbTick_frame h
    exact ⟨hlevels, fun hne => absurd rfl hne, fun _ _ => hrunning, fun _ => hpoll⟩
  | dbStart => cases h; by_cases hr : s.db.running = true <;> simp [hr, Instr.op]
  | dbStop => cases h; simp [Instr.op]
  | dbSetPoll p =>
    rw [exec_dbSetPoll, Host.Outcome.next.injEq] at h
    subst h
    by_cases h0 : p = 0 <;> simp [h0, Instr.op]
  | fbClear | fbSet | fbGet | fbBounds | encInit | encUpdate | encDrawImage | encPowerOff => exact nomatch hp

/-- Settles O17: what each port's operation can do (`exec_encoder_cases`, `exec_debounce_cases`), and the part of its
sub-block that it keeps. -/
theorem operationsKeepToTheirState : Obligations.OperationsKeepToTheirState := by
  refine ⟨fun i s hp => ?_, fun i s hp => ?_⟩
  · obtain ⟨t, _, r, hexec, hframe, hbusy, _, _, hresp, _⟩ := exec_encoder_cases (s := s) hp
    exact ⟨t, r, hexec, hframe, hbusy, hresp, exec_encoder_answers_suffix hp hexec⟩
  · obtain ⟨t, q, r, hexec, hframe, hlock, hresp, _, _⟩ := exec_debounce_cases (s := s) hp
    exact ⟨t, _, hexec, hframe, hlock, hresp, exec_debounce_frame hp hexec⟩

/-! ### The primitives of an encoder operation (R12, R120, R191, R195) -/

/-- The events of a sequence from index 0, in the terms of its response: what failed could fail. -/
theorem eventsOf_replyOf {ps : List Prim} {outcome : Option (Nat × Nat)} {evs : List EncEvent}
    (hev : EventsFor ps 0 outcome evs)
    (hfail : ∀ x k, outcome = some (x, k) → ∃ p, ps[k]? = some p ∧ p.fallible = true) :
    eventsOf ps evs (replyOf outcome) := by
  cases outcome with
  | none => exact hev
  | some xk =>
    obtain ⟨x, k⟩ := xk
    obtain ⟨j, p, hp, hk, rfl⟩ := hev
    obtain rfl : k = j := hk.trans (Nat.zero_add j)
    obtain ⟨q, hq, hqf⟩ := hfail x k rfl
    obtain rfl : p = q := Option.some.inj (hp.symm.trans hq)
    refine ⟨p, hp, fun d hd => ?_, rfl⟩
    subst hd
    exact nomatch hqf

/-- An operation made of primitives performs them up to the first that fails. -/
theorem runEncOp_events (ps : List Prim) (s : State) :
    ∃ new r, (runEncOp ps s).enc.trace = s.enc.trace ++ new ∧
      (runEncOp ps s).enc.responses = s.enc.responses ++ [r] ∧ eventsOf ps new r := by
  obtain ⟨evs, hev, htrace, _, _, _, _, hresp⟩ := runPrims_cases ps s.enc.begin
  refine ⟨evs, replyOf (runPrims ps s.enc.begin).1, htrace, by simp [runEncOp_eq, hresp], eventsOf_replyOf hev ?_⟩
  intro x k hxk
  obtain ⟨p, hp, hfallible, _⟩ := runPrims_error_fallible hxk
  exact ⟨p, hp, hfallible⟩

/-- An update performs the pages' primitives, for the framebuffer it leaves as it was. -/
theorem runEncOp_update_events (s : State) :
    ∃ new r, (runEncOp (updatePrims s.cfg s.enc.fb) s).enc.trace = s.enc.trace ++ new ∧
      (runEncOp (updatePrims s.cfg s.enc.fb) s).enc.responses = s.enc.responses ++ [r] ∧
      eventsOf (pagesSteps s.cfg (runEncOp (updatePrims s.cfg s.enc.fb) s).enc.fb s.cfg.pages) new r := by
  rw [runEncOp_fb, ← updatePrims_eq_pagesSteps]
  exact runEncOp_events _ s

/-- Settles O39: a framebuffer operation performs nothing; every other is `runEncOp` of the primitives that
`operationSteps` writes out for the framebuffer it leaves. -/
theorem operationsPerformTheirPrimitives : Obligations.OperationsPerformTheirPrimitives := by
  intro i s hp
  cases i with
  | fbClear | fbSet | fbGet | fbBounds =>
    exact ⟨_, [], _, rfl, (List.append_nil _).symm, rfl, rfl⟩
  | encInit =>
    obtain ⟨new, r, htrace, hresp, hev⟩ := runEncOp_events (initPrims s.cfg) s
    exact ⟨_, new, r, rfl, htrace, hresp, initPrims_eq_initSteps s.cfg ▸ hev⟩
  | encUpdate =>
    obtain ⟨new, r, hupdate⟩ := runEncOp_update_events s
    exact ⟨_, new, r, rfl, hupdate⟩
  | encDrawImage x0 y0 x1 y1 sx sy =>
    obtain ⟨new, r, hupdate⟩ :=
      runEncOp_update_events (s.withFb (drawInto s.cfg s.image s.enc.fb x0 y0 x1 y1 sx sy))
    exact ⟨_, new, r, rfl, hupdate⟩
  | encPowerOff =>
    obtain ⟨new, r, hcmd⟩ := runEncOp_events (cmd s.cfg.panelOff) s
    exact ⟨_, new, r, rfl, hcmd⟩
  | dbTick | dbStart | dbStop | dbSetPoll => exact nomatch hp

end Sys2Proof.Machine
end

section
/-! PROOFS of the statements of the family 10_state.md: the invariants every step keeps (R22, R25, R29, R33, R37, R41),
the frame of the framebuffer and of the reset line (R23, R39), the pixel map (R22, R53), and what the encoder operations
leave on the output lines when they succeed and when they fail (R25, R192). -/

namespace Sys2Proof.Machine

/-! ### Invariants that every step keeps -/

/-- Settles O30: the three things a step can be; an operation keeps form and space by `exec_framebuffer`. -/
theorem framebufferStaysCanonical : Obligations.FramebufferStaysCanonical := by
  intro s t hgeometry hinv hstep
  obtain ⟨hwf, hwithin⟩ := hinv
  obtain ⟨-, -, hheight, -⟩ := hgeometry
  rcases step_cases hstep with ⟨-, hwait⟩ | ⟨r, rest, -, -, -, hrefuse⟩ | ⟨r, rest, i, -, -, -, hexec⟩
  · cases hwait
    exact ⟨hwf, hwithin⟩
  · cases hrefuse
    exact ⟨by simpa using hwf, by simpa using hwithin⟩
  · obtain ⟨u, hu, hcfg, huwf, huwithin, -⟩ := exec_framebuffer i (accept r rest s) (by simpa using hwf)
    cases hexec.trans hu
    exact ⟨huwf, hcfg ▸ huwithin (by simpa using hheight) (by simpa using hwithin)⟩

/-- Settles O44: replaying the old trace and then the new events is replaying the new trace. -/
theorem outputLinesFollowTheTrace : Obligations.OutputLinesFollowTheTrace := by
  intro s t hinv hstep
  unfold OutInv at hinv ⊢
  obtain ⟨-, henc, -⟩ := step_effect hstep
  rcases henc with ⟨htrace, hout, -⟩ | ⟨-, evs, -, -, htrace, hout, -⟩
  · rw [hout, htrace, hinv]
  · rw [hout, htrace, outReplay_append, hinv]

/-- Settles O14: the configuration's clause of `step_effect`. -/
theorem configurationIsReadOnly : Obligations.ConfigurationIsReadOnly :=
  fun _ _ hstep => (step_effect hstep).1

theorem EncoderEffect.trace_prefix {c : Params} {e e' : Encoder} (h : EncoderEffect c e e') : e.trace <+: e'.trace := by
  rcases h with ⟨htrace, -, -⟩ | ⟨-, evs, -, -, htrace, -, -⟩
  · exact htrace ▸ List.prefix_refl _
  · exact htrace ▸ List.prefix_append _ evs

theorem DebounceEffect.trace_prefix {c : Params} {d d' : Debounce} (h : DebounceEffect c d d') :
    d.trace <+: d'.trace := by
  obtain ⟨-, -, ⟨htrace, -⟩ | ⟨_, _, htrace, -⟩⟩ := h
  · exact htrace ▸ List.prefix_refl _
  · exact htrace ▸ List.prefix_append _ _

/-- Settles O15: each sub-block's effect keeps its trace or appends to it. -/
theorem tracesOnlyGrow : Obligations.TracesOnlyGrow := by
  intro s t hstep
  obtain ⟨-, henc, hdb⟩ := step_effect hstep
  exact ⟨henc.trace_prefix, hdb.trace_prefix⟩

/-- Settles O46: whatever a step does to a sub-block ends with its port as it was or free. -/
theorem portsAreFreeBetweenSteps : Obligations.PortsAreFreeBetweenSteps := by
  intro s t hinv hstep
  obtain ⟨hbusy, hlock⟩ := hinv
  obtain ⟨-, henc, -, hlockEffect, -⟩ := step_effect hstep
  refine ⟨?_, ?_⟩
  · rcases henc with ⟨-, -, hkept⟩ | ⟨-, -, -, hfree, -⟩
    · exact hkept.trans hbusy
    · exact hfree
  · rcases hlockEffect with hkept | hfree
    · exact hkept.trans hlock
    · exact hfree

/-- Settles O60: a step keeps the interval or leaves a positive one. -/
theorem pollIntervalStaysPositive : Obligations.PollIntervalStaysPositive := by
  intro s t hinv hstep
  obtain ⟨-, -, hkept | hpos, -⟩ := step_effect hstep
  · exact hinv.trans_eq hkept.symm
  · exact hpos

/-- Settles O20: every part of the reset state is fixed but the interval, which the free configuration has positive. -/
theorem resetMeetsTheInvariants : Obligations.ResetMeetsTheInvariants := by
  refine ⟨⟨Memory.wf_nil, rfl⟩, ⟨rfl, rfl⟩, rfl, ?_, fun l => ?_, fun l => ?_, Nat.succ_pos Config.freePoll⟩
  · exact fun x hx => absurd hx List.not_mem_nil
  · exact congrArg some (congrArg ButtonState.pressed (ButtonFile.get_fresh l)).symm
  · exact congrArg ButtonState.start (ButtonFile.get_fresh l)

/-! ### Taking and waiting (R29, R37, R57) -/

theorem takeReady_eq_none {s : State} {rs : List Request} (h : ∀ r ∈ rs, requestReady s r = false) :
    takeReady s rs = none := by
  induction rs with
  | nil => rfl
  | cons r rs ih =>
    obtain ⟨hr, hrs⟩ := List.forall_mem_cons.1 h
    simp [takeReady, hr, ih hrs]

theorem step_of_none_ready {s : State} (h : takeReady s s.pending = none) : step s = .next (awaitRequests s) := by
  simp only [step, h]

theorem step_of_ready_legal {s : State} {r : Request} {rest : List Request} {i : Instr}
    (ht : takeReady s s.pending = some (r, rest)) (hi : decodeRequest r = .ok i) :
    step s = exec i (accept r rest s) := by
  simp only [step, ht, hi]

/-- Settles O11: no legal request with its port taken is ready, so the step is the wait. -/
theorem requestWaitsForItsPort : Obligations.RequestWaitsForItsPort := by
  intro s hwaiting
  have hnone : takeReady s s.pending = none := takeReady_eq_none fun r hr => by
    obtain ⟨i, hi, htaken⟩ := hwaiting r hr
    exact (requestReady_legal hi).trans htaken
  exact ⟨_, _, step_of_none_ready hnone, awaitRequests_pending s, rfl, rfl, rfl⟩

theorem accept_encoder {r : Request} (rest : List Request) (s : State) (hp : r.port = .encoder) :
    accept r rest s = { s with pending := rest, image := r.image, enc := { s.enc with busy := true, k := 0 } } := by
  simp only [accept, hp, Encoder.begin]

theorem accept_debounce {r : Request} (rest : List Request) (s : State) (hp : r.port = .debounce) :
    accept r rest s = { s with pending := rest, image := r.image, db := { s.db with lock := .held } } := by
  simp only [accept, hp]

/-- Settles O9: a legal first request whose port is free is the one taken. -/
theorem stepPerformsTheDecodedRequest : Obligations.StepPerformsTheDecodedRequest := by
  intro s r rest i hpending hi hfree
  have htaken : takeReady s s.pending = some (r, rest) := by
    rw [hpending]
    exact takeReady_head rest ((requestReady_legal hi).trans hfree)
  exact ⟨step_of_ready_legal htaken hi, accept_encoder rest s, accept_debounce rest s⟩

/-! ### The pixel map (R22, R53, R100) -/

theorem pixelIndex_cast {c : Params} {x y : Int} (h : inB c x y = true) :
    (pixelIndex c x y : Int) = (y / 8) * c.width + x := by
  obtain ⟨⟨hx, -⟩, hy, -⟩ := (inB_iff c x y).1 h
  simp [pixelIndex, Int.toNat_of_nonneg hx, Int.toNat_of_nonneg hy]

theorem pixelBit_cast {y : Int} (h : 0 ≤ y) : (pixelBit y : Int) = y % 8 := by
  simp [pixelBit, Int.toNat_of_nonneg h]

/-- Bit `b` of byte `i` is pixel `(i mod W, 8 * (i div W) + b)` (R53). -/
theorem pixel_surjective {c : Params} {i b : Nat} (hi : i < c.width * (c.height / 8)) (hb : b < 8) :
    ∃ x y : Int, inB c x y = true ∧ pixelIndex c x y = i ∧ pixelBit y = b := by
  have hwidth : 0 < c.width := Nat.pos_of_mul_pos_right (Nat.zero_lt_of_lt hi)
  have hcolumn : i % c.width < c.width := Nat.mod_lt i hwidth
  have hpage : i / c.width < c.height / 8 := Nat.div_lt_of_lt_mul hi
  refine ⟨(i % c.width : Nat), (8 * (i / c.width) + b : Nat), (inB_iff _ _ _).2 (by omega), ?_, ?_⟩
  · have hrow : (8 * (i / c.width) + b) / 8 = i / c.width := by omega
    rw [pixelIndex, Int.toNat_natCast, Int.toNat_natCast, hrow, Nat.div_add_mod']
  · rw [pixelBit, Int.toNat_natCast]
    omega

/-- Settles O21: the address expression, its injectivity (`pixel_injective`) and its surjectivity. -/
theorem everyPixelIsOneBitOfOneByte : Obligations.EveryPixelIsOneBitOfOneByte := by
  intro c hgeometry
  obtain ⟨-, -, hheight, -⟩ := hgeometry
  refine ⟨fun x y hin => ?_, fun x y x' y' => pixel_injective, fun i b => pixel_surjective⟩
  obtain ⟨-, hy, -⟩ := (inB_iff c x y).1 hin
  exact ⟨pixelIndex_cast hin, pixelBit_cast hy, pixelIndex_lt hheight hin⟩

/-! ### What an operation leaves alone (R23, R39) -/

theorem exec_debounce_enc {i : Instr} {s t : State} (hp : i.op.port = .debounce) (h : exec i s = .next t) :
    t.enc = s.enc := by
  obtain ⟨u, _, _, hu, hframe, -⟩ := exec_debounce_cases (s := s) hp
  cases h.symm.trans hu
  rw [hframe]

/-- Settles O29: a read answers only, an operation of primitives keeps the framebuffer (`runEncOp_fb`), and a debounce
operation the whole encoder. -/
theorem onlyThreeOperationsWriteTheFramebuffer : Obligations.OnlyThreeOperationsWriteTheFramebuffer := by
  intro i s t h hclear hset hdraw
  cases i with
  | fbClear => exact absurd rfl hclear
  | fbSet => exact absurd rfl hset
  | encDrawImage => exact absurd rfl hdraw
  | fbGet | fbBounds => cases h; rfl
  | encInit | encUpdate | encPowerOff => cases h; exact runEncOp_fb _ s
  | dbTick | dbStart | dbStop | dbSetPoll => rw [exec_debounce_enc rfl h]

theorem outAfter_get_of_ne {p : Prim} {l : OutLine} (o : OutLines) (r : IoResult)
    (h : ∀ lvl, p ≠ .lineWrite l lvl) : (outAfter o p r).get l = o.get l := by
  cases p with
  | busTx | delay => rfl
  | lineWrite l' lvl =>
    have hne : l ≠ l' := fun hl => h lvl (hl ▸ rfl)
    cases r <;> simp [outAfter, hne]

/-- Events none of which writes a line leave it as it was (R120). -/
theorem outReplay_get_of_not_written {tr : List EncEvent} {l : OutLine} (o : OutLines)
    (h : ∀ ev ∈ tr, ∀ lvl, ev.prim ≠ .lineWrite l lvl) : (outReplay o tr).get l = o.get l := by
  induction tr generalizing o with
  | nil => rfl
  | cons ev tr ih =>
    obtain ⟨hev, htr⟩ := List.forall_mem_cons.1 h
    rw [outReplay_cons, ih _ htr, outAfter_get_of_ne o _ hev]

/-- A sequence's events are of its own primitives. -/
theorem EventsFor.prim_mem {ps : List Prim} {k0 : Nat} {outcome : Option (Nat × Nat)} {evs : List EncEvent}
    (h : EventsFor ps k0 outcome evs) : ∀ ev ∈ evs, ev.prim ∈ ps := by
  intro ev hev
  cases outcome with
  | none =>
    cases h
    obtain ⟨p, hp, rfl⟩ := List.mem_map.1 hev
    exact hp
  | some xk =>
    obtain ⟨j, p, hj, -, rfl⟩ := h
    rcases List.mem_append.1 hev with hbefore | hlast
    · obtain ⟨q, hq, rfl⟩ := List.mem_map.1 hbefore
      exact List.mem_of_mem_take hq
    · cases List.mem_singleton.1 hlast
      exact List.mem_of_getElem? hj

theorem txn_keeps_rst {mode : TxnMode} {bytes : List Byte} : ∀ p ∈ txn mode bytes, ∀ lvl, p ≠ .lineWrite .rst lvl := by
  simp [txn]

theorem updatePrims_keep_rst {c : Params} {m : Memory} : ∀ p ∈ updatePrims c m, ∀ lvl, p ≠ .lineWrite .rst lvl := by
  intro p hp
  obtain ⟨page, -, hpage⟩ := List.mem_flatMap.1 hp
  simp only [pagePrims, cmd, dataTxn, List.mem_append] at hpage
  obtain ((h | h) | h) | h := hpage <;> exact txn_keeps_rst p h

/-- Settles O43: but for `ENC_INIT` an operation's events are of transactions, which write `DC` and `CS` only. -/
theorem onlyInitWritesTheResetLine : Obligations.OnlyInitWritesTheResetLine := by
  intro i s t h hne
  cases hp : i.op.port with
  | debounce => rw [exec_debounce_enc hp h]
  | encoder =>
    obtain ⟨u, evs, -, hu, -, -, -, hout, -, hevs⟩ := exec_encoder_cases (s := s) hp
    cases h.symm.trans hu
    rw [hout]
    refine outReplay_get_of_not_written (l := .rst) s.enc.out fun ev hev => ?_
    rcases hevs with rfl | ⟨m, ps, _, ⟨-, hinit⟩ | rfl | rfl, hfor⟩
    · exact absurd hev List.not_mem_nil
    · exact absurd hinit hne
    · exact updatePrims_keep_rst _ (hfor.prim_mem ev hev)
    · exact txn_keeps_rst _ (hfor.prim_mem ev hev)

/-! ### When every primitive succeeds (R126, R133, R137, R149) -/

/-- The whole state after an operation of primitives that all succeed. -/
theorem runEncOp_of_all_ok {ps : List Prim} {s : State} {rest : List IoResult}
    (h : s.enc.answers = List.replicate (ps.countP Prim.fallible) .ok ++ rest) :
    runEncOp ps s = { s with enc := { s.enc with
      trace := s.enc.trace ++ ps.map .succeeded
      out := outReplay s.enc.out (ps.map .succeeded)
      busy := false
      k := ps.length
      responses := s.enc.responses ++ [.ok]
      answers := rest } } :=
  runEncOp_all_ok ps s rest h

/-- Settles O31: the general state with the length, lines and list of `ENC_INIT`'s primitives put in. -/
theorem encInitPerformsPulseAndSequence : Obligations.EncInitPerformsPulseAndSequence := by
  intro s rest hinit hanswers
  rw [← fallible_initPrims] at hanswers
  rw [← length_initPrims, ← outReplay_initPrims hinit s.enc.out, ← initPrims_eq_initSteps]
  exact congrArg _ (runEncOp_of_all_ok hanswers)

theorem exec_encUpdate_pages (s : State) :
    exec .encUpdate s = .next (runEncOp (pagesSteps s.cfg s.enc.fb s.cfg.pages) s) := by
  rw [← updatePrims_eq_pagesSteps]
  rfl

/-- Settles O33: the general state with the pages of the update put in; page `p` stands at index `16 * p`. -/
theorem encUpdateSendsEveryPage : Obligations.EncUpdateSendsEveryPage := by
  intro s rest hanswers
  rw [← fallible_pagesSteps s.cfg s.enc.fb] at hanswers
  have hrun := runEncOp_of_all_ok hanswers
  rw [length_pagesSteps] at hrun
  refine ⟨_, (exec_encUpdate_pages s).trans (congrArg _ hrun), rfl, outReplay_pagesSteps _ _ _ _, fun hnone => ?_,
    fun p hp => ?_⟩
  · simp [hnone, pagesSteps]
  · rw [List.drop_left, ← List.map_drop, ← List.map_take, page_of_pagesSteps _ _ _ _ hp]

/-- Settles O38: the general state for the one command transaction. -/
theorem powerOffSendsOneCommand : Obligations.PowerOffSendsOneCommand := by
  intro s rest hanswers
  have hrun := runEncOp_of_all_ok (ps := cmd s.cfg.panelOff) hanswers
  rw [cmd, outReplay_txn] at hrun
  exact congrArg _ hrun

/-! ### The lines after an operation (R25, R121, R192) -/

/-- What an encoder operation's events say of its response and of the lines it leaves. -/
theorem exec_encoder_events {i : Instr} {s t : State} (hp : i.op.port = .encoder) (h : exec i s = .next t) :
    ∃ new r, t.enc.busy = false ∧ t.enc.trace = s.enc.trace ++ new ∧ t.enc.out = outReplay s.enc.out new ∧
      t.enc.responses = s.enc.responses ++ [r] ∧ eventsOf (operationSteps s.cfg t.enc.fb i) new r := by
  obtain ⟨u, evs, -, hu, -, hbusy, htrace, hout, -, -⟩ := exec_encoder_cases (s := s) hp
  cases h.symm.trans hu
  obtain ⟨v, new, r, hv, htrace', hresp, hev⟩ := operationsPerformTheirPrimitives i s hp
  cases h.symm.trans hv
  obtain rfl : new = evs := List.append_cancel_left (htrace'.symm.trans htrace)
  exact ⟨new, r, hbusy, htrace, hout, hresp, hev⟩

/-- An operation that gave a response on the encoder port is the encoder's, and the response is its own. -/
theorem exec_encoder_response {i : Instr} {s t : State} {r : Reply} (h : exec i s = .next t)
    (hr : t.enc.responses = s.enc.responses ++ [r]) :
    ∃ new, t.enc.busy = false ∧ t.enc.trace = s.enc.trace ++ new ∧ t.enc.out = outReplay s.enc.out new ∧
      eventsOf (operationSteps s.cfg t.enc.fb i) new r := by
  cases hp : i.op.port with
  | debounce =>
    rw [exec_debounce_enc hp h] at hr
    simp at hr
  | encoder =>
    obtain ⟨new, r', hbusy, htrace, hout, hr', hev⟩ := exec_encoder_events hp h
    obtain rfl : r' = r := by simpa using hr'.symm.trans hr
    exact ⟨new, hbusy, htrace, hout, hev⟩

/-- Every transfer of an operation's primitives has the right shape (R59, R123). -/
theorem transferOk_operationSteps (c : Params) (m : Memory) (i : Instr) (o : OutLines) :
    ∀ x ∈ busTransfers o ((operationSteps c m i).map .succeeded), transferOk c.width x = true := by
  cases i with
  | encInit => exact transferOk_prims c m _ (.inl (initPrims_eq_initSteps c).symm) o
  | encUpdate | encDrawImage => exact transferOk_prims c m _ (.inr (.inl (updatePrims_eq_pagesSteps c m).symm)) o
  | encPowerOff => exact transferOk_prims c m _ (.inr (.inr rfl)) o
  | fbClear | fbSet | fbGet | fbBounds | dbTick | dbStart | dbStop | dbSetPoll =>
    exact fun x hx => absurd hx List.not_mem_nil

theorem cs_low_of_transferOk {width : Nat} {dc cs : OutLevel} {bytes : List Byte}
    (h : transferOk width (dc, cs, bytes) = true) : cs = .low := by
  cases cs with
  | low => rfl
  | high | unknown => cases dc <;> exact nomatch h

/-- `CS` is low when a bus transfer of an operation begins. -/
theorem cs_low_before_busTx {c : Params} {m : Memory} {i : Instr} {k : Nat} {bytes : List Byte} (o : OutLines)
    (h : (operationSteps c m i)[k]? = some (.busTx bytes)) :
    (outReplay o (((operationSteps c m i).take k).map .succeeded)).cs = .low := by
  have hfor : EventsFor (operationSteps c m i) 0 (some (0, k))
      (((operationSteps c m i).take k).map .succeeded ++ [{ prim := .busTx bytes, result := .err 0 }]) :=
    ⟨k, _, h, (Nat.zero_add k).symm, rfl⟩
  have hok := fun x hx => transferOk_operationSteps c m i o x (busTransfers_subset hfor o x hx)
  rw [busTransfers_append] at hok
  exact cs_low_of_transferOk (hok _ (List.mem_append_right _ (List.mem_singleton_self _)))

/-- Settles O40: the last event is the failing primitive's, and the lines are replayed up to it. -/
theorem failedWriteLeavesTheLineUnknown : Obligations.FailedWriteLeavesTheLineUnknown := by
  intro i s t e k h hr
  obtain ⟨new, hbusy, htrace, hout, p, hp, -, rfl⟩ := exec_encoder_response h hr
  rw [outReplay_append, outReplay_cons, outReplay_nil] at hout
  refine ⟨p, by simp [htrace], fun l lvl hwrite => ?_, fun bytes hbus => ?_, hbusy⟩
  · subst hwrite
    simp [hout, outAfter]
  · subst hbus
    rw [hout]
    exact cs_low_before_busTx s.enc.out hp

theorem pages_pos {c : Params} (h : c.ValidGeometry) : 0 < c.pages := by
  obtain ⟨-, hpos, hheight, -⟩ := h
  exact Nat.div_pos (Nat.le_of_dvd hpos (Nat.dvd_of_mod_eq_zero hheight)) (by decide)

/-- Settles O41: a success performed all primitives, and the lines they leave do not depend on the lines before. -/
theorem successLeavesChipSelectHigh : Obligations.SuccessLeavesChipSelectHigh := by
  intro i s t hvalid hop h hr
  obtain ⟨hgeometry, hinit, -⟩ := hvalid
  obtain ⟨new, -, -, hout, rfl⟩ := exec_encoder_response h hr
  cases i with
  | encInit =>
    rw [operationSteps, ← initPrims_eq_initSteps, outReplay_initPrims hinit] at hout
    simp [hout]
  | encUpdate | encDrawImage =>
    rw [operationSteps, outReplay_pagesSteps _ _ _ _ (pages_pos hgeometry)] at hout
    simp [hout, Instr.op]
  | encPowerOff =>
    have hlines := hout.trans (outReplay_txn s.enc.out .cmd [s.cfg.panelOff])
    simp [hlines, Instr.op, TxnMode.level, OutLevel.ofLevel]
  | fbClear | fbSet | fbGet | fbBounds | dbTick | dbStart | dbStop | dbSetPoll => simp [Instr.op] at hop

/-! ### The input lines (R30, R160, R161) -/

/-- Settles O47: the polarity bit chooses the level that counts as pressed; the order is `Line.all` itself. -/
theorem levelMappingFollowsThePolarity : Obligations.LevelMappingFollowsThePolarity := by
  refine ⟨fun c l lvl => ⟨fun hlow => ?_, fun hhigh => ?_⟩, rfl, rfl⟩
  · simp [mapLevel, activeLow, hlow]
  · simp [mapLevel, activeLow, hhigh]

end Sys2Proof.Machine
end

section
/-! PROOFS of the statements of the family 20_memory.md: the bus transfers stay inside transactions (R59, R121, R228,
R229). -/

namespace Sys2Proof.Machine

/-- Every transfer among an operation's events has the right shape, also when an error cut the operation short and
whatever the lines held before (R59, R123). -/
theorem EncoderEvents.all_transferOk {c : Params} {i : Instr} {evs : List EncEvent} (h : EncoderEvents c i evs)
    (o : OutLines) : ∀ x ∈ busTransfers o evs, transferOk c.width x = true := by
  intro x hx
  rcases h with rfl | ⟨m, ps, outcome, hps, hfor⟩
  · exact absurd hx List.not_mem_nil
  · have hfull : x ∈ busTransfers o (ps.map .succeeded) := busTransfers_subset hfor o x hx
    exact transferOk_prims c m ps (hps.imp_left And.left) o x hfull

/-- Settles O45: the transfers of the longer trace are the old ones, and those of one operation's events from the lines
the old trace leaves. -/
theorem busTransfersStayBracketed : Obligations.BusTransfersStayBracketed := by
  intro s t hinv hstep
  unfold BusInv at hinv ⊢
  obtain ⟨hcfg, henc, -⟩ := step_effect hstep
  rw [hcfg]
  rcases henc with ⟨htrace, -⟩ | ⟨i, evs, -, -, htrace, -, hevs⟩
  · rwa [htrace]
  · rw [htrace, busTransfers_append]
    intro x hx
    rcases List.mem_append.1 hx with hold | hnew
    · exact hinv x hold
    · exact hevs.all_transferOk (outReplay Encoder.fresh.out s.enc.trace) x hnew

end Sys2Proof.Machine
end

section
/-! PROOFS of the statements of the family 30_encoding.md: the two round trips of the encoding (R71 to R76, R84, R85), the
legal requests against the opcode map (R78, R81, R82), response words (R79, R80), the assembler (R86, R87), what a step does
with a legal and with an illegal request (R57, R80, R82), and the debounce operations that do nothing else (R165, R172,
R173). -/

namespace Sys2Proof

open Laws.Opcode Laws.Encoding

/-! ### Decode of encode (R71 to R76, R78) -/

/-- A word with an operation's opcode and no reserved bit set decodes to that operation's operands, or to the refusal they
call for. -/
theorem decode_eq_operandsOf {w0 : Word} {o : Op} (w1 : Word) (hopcode : o.byte = opcodeOf w0)
    (hreserved : w0 &&& o.format.reserved = 0#64) : decode w0 w1 = operandsOf w0 w1 o := by
  simp only [decode, ← hopcode, ofByte_byte, hreserved, if_true]

theorem decodeOn_of_decode {w0 w1 : Word} {i : Instr} (h : decode w0 w1 = .ok i) :
    decodeOn i.op.port w0 w1 = .ok i := by
  simp only [decodeOn, h, if_true]

/-- Word 0 of every instruction has its opcode, and no reserved bit is set (R71, R73, R81). -/
theorem encodeWord0_statement (i : Instr) : Statement i := by
  cases i with
  | fbClear on => exact fbClear on
  | fbSet x y on => exact fbSet x y on
  | fbGet x y => exact fbGet x y
  | fbBounds => exact fbBounds
  | encInit => exact encInit
  | encUpdate => exact encUpdate
  | encDrawImage x0 y0 x1 y1 sx sy => exact encDrawImage x0 y0 x1 y1 sx sy
  | encPowerOff => exact encPowerOff
  | dbTick now => exact dbTick now
  | dbStart => exact dbStart
  | dbStop => exact dbStop
  | dbSetPoll p => exact dbSetPoll p

/-- A coordinate in range is read back from the field that holds its encoding (R75). -/
theorem coordField_of_extract {w : Word} {lo : Nat} {x : Int} (hfield : w.extractLsb' lo 12 = encodeCoord x)
    (hfits : coordFits x = true) : coordField w lo = x := by
  rw [coordField, hfield, toInt_encodeCoord hfits]

/-- A time in range is read back from a word of format `T` (R76). -/
theorem timeField_packT (op : Byte) {t : Nat} (hfits : timeFits t = true) :
    timeField (packT op (encodeTime t)) = t := by
  rw [timeField, packT_tf, toNat_encodeTime hfits]

/-- The operands read from an instruction's own words are its operands (R74 to R76). -/
theorem operandsOf_encode {i : Instr} (h : i.wellFormed = true) :
    operandsOf (encodeWord0 i) (encodeWord1 i) i.op = .ok i := by
  obtain ⟨hfits, hlegal⟩ : i.fitsFields = true ∧ i.operandLegal = true := Bool.and_eq_true_iff.1 h
  cases i with
  | fbBounds | encInit | encUpdate | encPowerOff | dbStart | dbStop => rfl
  | fbClear on => simp only [Instr.op, operandsOf, encodeWord0, packB_v]
  | fbSet x y on =>
    obtain ⟨hx, hy⟩ := Bool.and_eq_true_iff.1 hfits
    simp only [Instr.op, operandsOf, encodeWord0, packP_on, coordField_of_extract (packP_xf _ _ _ _) hx,
      coordField_of_extract (packP_yf _ _ _ _) hy]
  | fbGet x y =>
    obtain ⟨hx, hy⟩ := Bool.and_eq_true_iff.1 hfits
    simp only [Instr.op, operandsOf, encodeWord0, coordField_of_extract (packQ_xf _ _ _) hx,
      coordField_of_extract (packQ_yf _ _ _) hy]
  | encDrawImage x0 y0 x1 y1 sx sy =>
    simp only [Instr.fitsFields, Bool.and_eq_true] at hfits
    obtain ⟨⟨⟨⟨⟨hx0, hy0⟩, hx1⟩, hy1⟩, hsx⟩, hsy⟩ := hfits
    simp only [Instr.op, operandsOf, encodeWord0, encodeWord1, secondWordMatches_packQ, if_true,
      coordField_of_extract (packR2_x0f _ _ _ _ _) hx0, coordField_of_extract (packR2_y0f _ _ _ _ _) hy0,
      coordField_of_extract (packR2_x1f _ _ _ _ _) hx1, coordField_of_extract (packR2_y1f _ _ _ _ _) hy1,
      coordField_of_extract (packQ_xf _ _ _) hsx, coordField_of_extract (packQ_yf _ _ _) hsy]
  | dbTick now => simp only [Instr.op, operandsOf, encodeWord0, timeField_packT _ hfits]
  | dbSetPoll p =>
    have hpos : 0 < p := of_decide_eq_true hlegal
    simp only [Instr.op, operandsOf, encodeWord0, timeField_packT _ hfits, if_neg (Nat.ne_of_gt hpos)]

/-- Settles O2: the opcode selects the instruction's own operation, and its fields give the operands back. -/
theorem encodeThenDecode : Obligations.EncodeThenDecode := by
  intro i hwf
  obtain ⟨hopcode, hreserved⟩ := encodeWord0_statement i
  refine decodeOn_of_decode ?_
  exact (decode_eq_operandsOf (encodeWord1 i) hopcode.symm hreserved).trans (operandsOf_encode hwf)

/-! ### Encode of decode (R73, R81, R84, R85) -/

theorem encodeCoord_coordField (w : Word) (lo : Nat) : encodeCoord (coordField w lo) = w.extractLsb' lo 12 :=
  encodeCoord_toInt _

theorem encodeTime_timeField (w : Word) : encodeTime (timeField w) = w.extractLsb' 0 48 :=
  encodeTime_toNat _

theorem coordFits_coordField (w : Word) (lo : Nat) : coordFits (coordField w lo) = true :=
  coordFits_toInt _

theorem timeFits_timeField (w : Word) : timeFits (timeField w) = true :=
  timeFits_toNat _

/-- Operands read from a word are in range and legal (R75, R76, R82). -/
theorem wellFormed_of_operandsOf {w0 w1 : Word} {o : Op} {i : Instr} (h : operandsOf w0 w1 o = .ok i) :
    i.wellFormed = true := by
  cases o with
  | fbClear | fbSet | fbGet | fbBounds | encInit | encUpdate | encPowerOff | dbTick | dbStart | dbStop =>
    cases h
    simp [Instr.wellFormed, Instr.fitsFields, Instr.operandLegal, coordFits_coordField, timeFits_timeField]
  | encDrawImage =>
    rw [operandsOf] at h
    split at h
    · cases h
      simp [Instr.wellFormed, Instr.fitsFields, Instr.operandLegal, coordFits_coordField]
    · cases h
  | dbSetPoll =>
    rw [operandsOf] at h
    split at h
    · cases h
    · next hpos =>
      cases h
      simp [Instr.wellFormed, Instr.fitsFields, Instr.operandLegal, timeFits_timeField, Nat.pos_of_ne_zero hpos]

/-- A word without reserved bits is the word of the operands read from it (R73). -/
theorem encodeWord0_of_operandsOf {w0 w1 : Word} {o : Op} {i : Instr} (hopcode : o.byte = opcodeOf w0)
    (hreserved : w0 &&& o.format.reserved = 0#64) (h : operandsOf w0 w1 o = .ok i) : encodeWord0 i = w0 := by
  cases o with
  | fbBounds | encInit | encUpdate | encPowerOff | dbStart | dbStop => cases h; exact packN_fields hopcode hreserved
  | fbClear => cases h; exact packB_fields hopcode hreserved
  | fbSet =>
    cases h
    simp only [encodeWord0, encodeCoord_coordField]
    exact packP_fields hopcode hreserved
  | fbGet =>
    cases h
    simp only [encodeWord0, encodeCoord_coordField]
    exact packQ_fields hopcode hreserved
  | encDrawImage =>
    rw [operandsOf] at h
    split at h
    · cases h
      simp only [encodeWord0, encodeCoord_coordField]
      exact packR2_fields hopcode hreserved
    · cases h
  | dbTick =>
    cases h
    rw [encodeWord0, encodeTime_timeField]
    exact packT_fields hopcode hreserved
  | dbSetPoll =>
    rw [operandsOf] at h
    split at h
    · cases h
    · cases h
      rw [encodeWord0, encodeTime_timeField]
      exact packT_fields hopcode hreserved

/-- A word 1 that matches is the word 1 of the operands read from it (R73, R78). -/
theorem encodeWord1_of_operandsOf {w0 w1 : Word} {i : Instr} (h : operandsOf w0 w1 .encDrawImage = .ok i) :
    encodeWord1 i = w1 := by
  rw [operandsOf] at h
  split at h
  · next hmatch =>
    cases h
    simp only [encodeWord1, encodeCoord_coordField]
    exact packQ_second_word hmatch
  · cases h

/-- Settles O3: a word that decodes is the packing of its own fields, whose values are in range. -/
theorem decodeThenEncode : Obligations.DecodeThenEncode := by
  intro port w0 w1 i h
  obtain ⟨hdecode, hport⟩ := decodeOn_ok h
  obtain ⟨o, hopcode, hreserved, hoperands⟩ := decode_ok hdecode
  obtain rfl : i.op = o := op_of_operandsOf hoperands
  refine ⟨wellFormed_of_operandsOf hoperands, hport, encodeWord0_of_operandsOf hopcode hreserved hoperands,
    fun hdraw => ?_⟩
  rw [hdraw] at hoperands
  exact encodeWord1_of_operandsOf hoperands

/-- Settles O1: ten closed words, each evaluated. -/
theorem specWordsDecode : Obligations.SpecWordsDecode := by
  unfold Obligations.SpecWordsDecode
  decide

end Sys2Proof

namespace Sys2Proof.Machine

open Laws.Encoding

/-! ### The opcode map (R72, R78, R81, R82) -/

/-- An operation's row of the opcode map, as the decoder has it; `opcodeMap_eq_map_tableRow` ties it to the copied
columns. -/
def tableRow (o : Op) : TableRow := { op := o, port := o.port, pattern := o.match0, mask := o.mask0 }

theorem opcodeMap_eq_map_tableRow : opcodeMap = Op.all.map tableRow := by decide

theorem tableRow_mem_opcodeMap (o : Op) : tableRow o ∈ opcodeMap := by
  rw [opcodeMap_eq_map_tableRow]
  exact List.mem_map_of_mem (by cases o <;> decide)

/-- The operands of a word are legal unless word 1 of a draw does not match or an interval is zero (R82). -/
theorem exists_operandsOf_iff (w0 w1 : Word) (o : Op) :
    (∃ i, operandsOf w0 w1 o = .ok i) ↔
      (o = .encDrawImage → secondWordMatches w1 = true) ∧ (o = .dbSetPoll → timeField w0 ≠ 0) := by
  cases o with
  | fbClear | fbSet | fbGet | fbBounds | encInit | encUpdate | encPowerOff | dbTick | dbStart | dbStop =>
    exact ⟨fun _ => ⟨nofun, nofun⟩, fun _ => ⟨_, rfl⟩⟩
  | encDrawImage => by_cases h : secondWordMatches w1 = true <;> simp [operandsOf, h]
  | dbSetPoll => by_cases h : timeField w0 = 0 <;> simp [operandsOf, h]

theorem secondWordMatches_iff (w1 : Word) :
    secondWordMatches w1 = true ↔ w1 &&& 0xFFFFFFFFFF000000#64 = 0xFF00000000000000#64 :=
  beq_iff_eq

/-- A request matches an operation's row when the port owns it, its opcode and reserved bits are right, and its operands
are legal. -/
theorem matchesRow_iff (port : Port) (w0 w1 : Word) (o : Op) :
    matchesRow port w0 w1 (tableRow o) ↔
      o.port = port ∧ (o.byte = opcodeOf w0 ∧ w0 &&& o.format.reserved = 0#64) ∧ ∃ i, operandsOf w0 w1 o = .ok i := by
  rw [exists_operandsOf_iff, ← match_iff_opcode_and_reserved, secondWordMatches_iff, Ne, ← time_mask_zero_iff]
  rfl

/-- A request that decodes matches the row of the operation it decodes to. -/
theorem matchesRow_of_decodeOn {port : Port} {w0 w1 : Word} {i : Instr} (h : decodeOn port w0 w1 = .ok i) :
    matchesRow port w0 w1 (tableRow i.op) := by
  obtain ⟨hdecode, hport⟩ := decodeOn_ok h
  obtain ⟨o, hopcode, hreserved, hoperands⟩ := decode_ok hdecode
  obtain rfl : i.op = o := op_of_operandsOf hoperands
  exact (matchesRow_iff port w0 w1 i.op).2 ⟨hport, ⟨hopcode, hreserved⟩, i, hoperands⟩

theorem decodeOn_of_matchesRow {port : Port} {w0 w1 : Word} {o : Op} (h : matchesRow port w0 w1 (tableRow o)) :
    ∃ i, decodeOn port w0 w1 = .ok i := by
  obtain ⟨rfl, ⟨hopcode, hreserved⟩, i, hoperands⟩ := (matchesRow_iff port w0 w1 o).1 h
  obtain rfl : i.op = o := op_of_operandsOf hoperands
  exact ⟨i, decodeOn_of_decode ((decode_eq_operandsOf w1 hopcode hreserved).trans hoperands)⟩

theorem exists_decodeOn_iff_legalOn (port : Port) (w0 w1 : Word) :
    (∃ i, decodeOn port w0 w1 = .ok i) ↔ legalOn port w0 w1 := by
  constructor
  · rintro ⟨i, hi⟩
    exact ⟨tableRow i.op, tableRow_mem_opcodeMap i.op, matchesRow_of_decodeOn hi⟩
  · rintro ⟨row, hrow, hmatch⟩
    rw [opcodeMap_eq_map_tableRow] at hrow
    obtain ⟨o, -, rfl⟩ := List.mem_map.1 hrow
    exact decodeOn_of_matchesRow hmatch

/-- Settles O4: a row's match under its mask is the decoder's own test of opcode and reserved bits
(`match_iff_opcode_and_reserved`). -/
theorem legalRequestsMatchTheOpcodeMap : Obligations.LegalRequestsMatchTheOpcodeMap := by
  intro port w0 w1
  refine ⟨exists_decodeOn_iff_legalOn port w0 w1, fun i hi => ?_⟩
  exact ⟨tableRow i.op, tableRow_mem_opcodeMap i.op, rfl, matchesRow_of_decodeOn hi⟩

/-! ### Response words (R79, R80) -/

theorem word_errIllegal_toNat (op : Byte) : (Reply.errIllegal op).word.toNat = 2 ^ 57 + op.toNat := by
  rw [word_toNat, payload_errIllegal_toNat]
  simp [Reply.status]

/-- Settles O6: each word is its status byte above its payload (`word_toNat`). -/
theorem responseWordLayout : Obligations.ResponseWordLayout := by
  refine ⟨rfl, fun on => ?_, fun w h hw hh => ?_, fun e k hk => ⟨?_, rfl⟩, word_errIllegal_toNat⟩
  · cases on <;> rfl
  · rw [word_toNat, payload_bounds_toNat hw hh]
    simp [Reply.status]
  · rw [word_toNat, payload_errIo_toNat hk]
    simp [Reply.status]

/-! ### The assembler (R86, R87) -/

/-- Settles O8: the assembler's answer for any line, for the line of a term, and for a hexadecimal numeral. -/
theorem assembledOperandsFit : Obligations.AssembledOperandsFit :=
  ⟨fun _ _ _ => assembleTerm_of_termOf, fun _ => assembleTerm_eq_none, fun _ _ => fitsFields_of_assembleTerm,
    assembleTerm_sourceLine, integerOperand_hexadecimal⟩

/-- Settles O7: two closed lines, each evaluated. -/
theorem displayAllAssemblesToUpdate : Obligations.DisplayAllAssemblesToUpdate := by
  unfold Obligations.DisplayAllAssemblesToUpdate
  decide

/-! ### Illegal and legal requests (R57, R80, R82) -/

theorem decodeRequest_of_not_legalOn {r : Request} (h : ¬ legalOn r.port r.word0 r.word1) :
    ∃ e, decodeRequest r = .error e := by
  cases hd : decodeRequest r with
  | error e => exact ⟨e, rfl⟩
  | ok i => exact absurd ((exists_decodeOn_iff_legalOn _ _ _).1 ⟨i, hd⟩) h

theorem step_of_ready_illegal {s : State} {r : Request} {rest : List Request} {e : DecodeError}
    (ht : takeReady s s.pending = some (r, rest)) (he : decodeRequest r = .error e) :
    step s = .next (refuseIllegal r rest s) := by
  simp only [step, ht, he]

theorem refuseIllegal_encoder {r : Request} (rest : List Request) (s : State) (hp : r.port = .encoder) :
    refuseIllegal r rest s = { s with pending := rest, enc := s.enc.push (.errIllegal (opcodeOf r.word0)) } := by
  simp only [refuseIllegal, hp]

theorem refuseIllegal_debounce {r : Request} (rest : List Request) (s : State) (hp : r.port = .debounce) :
    refuseIllegal r rest s = { s with
      pending := rest
      db := s.db.push (refusedTo (opcodeOf r.word0)) (.errIllegal (opcodeOf r.word0)) } := by
  simp only [refuseIllegal, hp]

@[simp] theorem refuseIllegal_image (r : Request) (rest : List Request) (s : State) :
    (refuseIllegal r rest s).image = s.image := by
  unfold refuseIllegal; cases r.port <;> rfl

@[simp] theorem refuseIllegal_waits (r : Request) (rest : List Request) (s : State) :
    (refuseIllegal r rest s).waits = s.waits := by
  unfold refuseIllegal; cases r.port <;> rfl

/-- Settles O5: an illegal request is ready whatever its port, so the first of the list is the one refused. -/
theorem illegalRequestIsRefused : Obligations.IllegalRequestIsRefused := by
  intro s r rest hpending hillegal
  obtain ⟨e, he⟩ := decodeRequest_of_not_legalOn hillegal
  have htaken : takeReady s s.pending = some (r, rest) := by
    rw [hpending]
    exact takeReady_head rest (requestReady_illegal he)
  refine ⟨_, step_of_ready_illegal htaken he, by simp, by simp, by simp, by simp, fun hp => ?_, fun hp => ?_,
    word_errIllegal_toNat _⟩
  · rw [refuseIllegal_encoder rest s hp]
    exact ⟨rfl, rfl⟩
  · rw [refuseIllegal_debounce rest s hp]
    exact ⟨rfl, _, rfl⟩

/-- Settles O10: a request presented first is ready, and the two decoders agree on it. -/
theorem presentedWordIsPerformed : Obligations.PresentedWordIsPerformed :=
  fun s nbits w _ hi =>
    step_of_ready_legal (takeReady_presentFirst (tableRequest nbits w) s) (decodeRequest_tableRequest hi)

/-- One more response on a request's own port and none on the other. -/
def OneResponse (port : Port) (s t : State) : Prop :=
  (port = .encoder → t.enc.responses.length = s.enc.responses.length + 1 ∧ t.db.responses = s.db.responses) ∧
  (port = .debounce → t.db.responses.length = s.db.responses.length + 1 ∧ t.enc.responses = s.enc.responses)

theorem refuseIllegal_oneResponse (r : Request) (rest : List Request) (s : State) :
    OneResponse r.port s (refuseIllegal r rest s) := by
  refine ⟨fun hp => ?_, fun hp => ?_⟩
  · simp [refuseIllegal_encoder rest s hp]
  · simp [refuseIllegal_debounce rest s hp]

/-- An operation leaves the requests presented alone and gives one response on its port (R80). -/
theorem exec_oneResponse {i : Instr} {s t : State} (h : exec i s = .next t) :
    t.pending = s.pending ∧ OneResponse i.op.port s t := by
  cases hp : i.op.port with
  | encoder =>
    obtain ⟨u, _, r, hu, hframe, -, -, -, hresp, -⟩ := exec_encoder_cases (s := s) hp
    cases h.symm.trans hu
    exact ⟨by rw [hframe], fun _ => ⟨by simp [hresp], by rw [hframe]⟩, nofun⟩
  | debounce =>
    obtain ⟨u, _, _, hu, hframe, -, hresp, -⟩ := exec_debounce_cases (s := s) hp
    cases h.symm.trans hu
    exact ⟨by rw [hframe], nofun, fun _ => ⟨by simp [hresp], by rw [hframe]⟩⟩

/-- Settles O13: a request that is taken is refused or performed, each with one response. -/
theorem oneResponsePerRequest : Obligations.OneResponsePerRequest := by
  intro s t r rest htaken hstep
  cases hd : decodeRequest r with
  | error e =>
    cases hstep.symm.trans (step_of_ready_illegal htaken hd)
    exact ⟨refuseIllegal_pending r rest s, refuseIllegal_oneResponse r rest s⟩
  | ok i =>
    obtain ⟨hpending, hresp⟩ := exec_oneResponse ((step_of_ready_legal htaken hd).symm.trans hstep)
    rw [decodeOn_port hd] at hresp
    exact ⟨by simpa using hpending, by simpa [OneResponse] using hresp⟩

/-! ### Debounce operations (R80, R163, R165, R172, R173) -/

/-- A tick while running is one poll and its response. -/
theorem exec_dbTick_running {s : State} (now : Nat) (h : s.db.running = true) :
    exec (.dbTick now) s = .next (respondDb .pollTimer .ok (s.withDb (pollAll s.cfg now s.db))) := by
  simp only [exec, execDbTick, h, if_true]

/-- A tick while stopped is its response alone. -/
theorem exec_dbTick_stopped {s : State} (now : Nat) (h : s.db.running = false) :
    exec (.dbTick now) s = .next (respondDb .pollTimer .ok s) := by
  simp only [exec, execDbTick, h, Bool.false_eq_true, if_false]
  rfl

/-- Settles O49: one poll (`pollAll_cases`), its visits in the terms of R163's table. -/
theorem tickGivesEachLineItsTransition : Obligations.TickGivesEachLineItsTransition := by
  intro s now hrunning
  obtain ⟨lv, hlevels, hbs, htrace, hpoll, hkept, -, hresponses⟩ := pollAll_cases s.cfg now s.db
  refine ⟨_, lv, exec_dbTick_running now hrunning, ?_, fun l => ?_, fun vs rest => hlevels vs rest⟩
  · simp only [visitEvents_eq_eventsAfter, ← htrace]
    simp [respondDb, State.withDb, Debounce.push, hpoll, hkept, hresponses]
  · rw [visitEntry_eq_buttonAfter]
    exact hbs l

/-- Settles O50: the response of a stopped tick, written out field by field. -/
theorem tickWhileStoppedDoesNothing : Obligations.TickWhileStoppedDoesNothing :=
  fun _ now hstopped => exec_dbTick_stopped now hstopped

/-- Settles O55: the two branches of `exec_dbSetPoll`. -/
theorem setPollWritesTheInterval : Obligations.SetPollWritesTheInterval := by
  intro s p
  refine ⟨fun hpos => ?_, exec_dbSetPoll 0 s⟩
  rw [exec_dbSetPoll, if_neg (Nat.ne_of_gt hpos)]
  rfl

end Sys2Proof.Machine
end

section
/-! PROOFS of the statements of the family 40_framebuffer.md: what each framebuffer operation answers and leaves (R101 to
R104), and what follows for runs of them (R105 to R108). Pixel writes are compared bit by bit: the rule
`getLsbD_read_setPixel` says what every bit of every byte is after one, and canonical memories with equal bits are equal. -/

namespace Sys2Proof.Machine

/-! ### Pixel writes, bit by bit (R102) -/

/-- Canonical memories with the same bits are equal as data. -/
theorem Memory.ext_getLsbD {m m' : Memory} (h : Memory.wf m = true) (h' : Memory.wf m' = true)
    (hbits : ∀ i j, j < 8 → (Memory.read m i).getLsbD j = (Memory.read m' i).getLsbD j) : m = m' :=
  Memory.ext_read h h' fun i => BitVec.eq_of_getLsbD_eq (hbits i)

/-- Every bit of every byte after a pixel write: the addressed one is `on`, the others are as before. -/
theorem getLsbD_read_setPixel {m : Memory} (c : Params) (x y : Int) (on : Bool) (i : Nat) {j : Nat}
    (h : Memory.wf m = true) (hj : j < 8) :
    (Memory.read (setPixel c m x y on) i).getLsbD j =
      if inB c x y = true ∧ i = pixelIndex c x y ∧ j = pixelBit y then on else (Memory.read m i).getLsbD j := by
  rw [read_setPixel c x y on i h]
  by_cases hbyte : inB c x y = true ∧ i = pixelIndex c x y
  · rw [if_pos hbyte, getLsbD_withBit _ y on j hj]
    simp [hbyte]
  · rw [if_neg hbyte, if_neg fun ⟨hin, hi, _⟩ => hbyte ⟨hin, hi⟩]

/-- A pixel write leaves every byte but the addressed one. -/
theorem read_setPixel_of_ne {m : Memory} {c : Params} {x y : Int} (on : Bool) {i : Nat} (h : Memory.wf m = true)
    (hi : i ≠ pixelIndex c x y) : Memory.read (setPixel c m x y on) i = Memory.read m i := by
  rw [read_setPixel c x y on i h, if_neg fun hbyte => hi hbyte.2]

/-- Of two writes of one pixel the later stays. -/
theorem setPixel_setPixel {m : Memory} (c : Params) (x y : Int) (on on' : Bool) (h : Memory.wf m = true) :
    setPixel c (setPixel c m x y on) x y on' = setPixel c m x y on' := by
  have hfirst := wf_setPixel c x y on h
  refine Memory.ext_getLsbD (wf_setPixel c x y on' hfirst) (wf_setPixel c x y on' h) fun i j hj => ?_
  rw [getLsbD_read_setPixel c x y on' i hfirst hj, getLsbD_read_setPixel c x y on i h hj,
    getLsbD_read_setPixel c x y on' i h hj]
  split <;> rfl

/-- Writes of different pixels commute: no bit is the addressed one of both (`pixel_injective`). -/
theorem setPixel_comm {m : Memory} {c : Params} {x y x' y' : Int} (on on' : Bool) (h : Memory.wf m = true)
    (hne : ¬(x = x' ∧ y = y')) :
    setPixel c (setPixel c m x y on) x' y' on' = setPixel c (setPixel c m x' y' on') x y on := by
  have hwf := wf_setPixel c x y on h
  have hwf' := wf_setPixel c x' y' on' h
  refine Memory.ext_getLsbD (wf_setPixel c x' y' on' hwf) (wf_setPixel c x y on hwf') fun i j hj => ?_
  rw [getLsbD_read_setPixel c x' y' on' i hwf hj, getLsbD_read_setPixel c x y on i h hj,
    getLsbD_read_setPixel c x y on i hwf' hj, getLsbD_read_setPixel c x' y' on' i h hj]
  split
  next hbit' =>
    obtain ⟨hin', hbyte', hpos'⟩ := hbit'
    rw [if_neg]
    rintro ⟨hin, hbyte, hpos⟩
    exact hne (pixel_injective hin hin' (hbyte.symm.trans hbyte') (hpos.symm.trans hpos'))
  next => rfl

/-- Writing the value a pixel has changes nothing. -/
theorem setPixel_getPixel {m : Memory} (c : Params) (x y : Int) (h : Memory.wf m = true) :
    setPixel c m x y (getPixel c m x y) = m := by
  refine Memory.ext_getLsbD (wf_setPixel c x y _ h) h fun i j hj => ?_
  rw [getLsbD_read_setPixel c x y _ i h hj]
  split
  next hbit =>
    obtain ⟨-, rfl, rfl⟩ := hbit
    rfl
  next => rfl

theorem getPixel_setPixel_self {m : Memory} {c : Params} {x y : Int} (on : Bool) (h : Memory.wf m = true)
    (hin : inB c x y = true) : getPixel c (setPixel c m x y on) x y = on := by
  rw [getPixel_setPixel x y on h hin, if_pos ⟨hin, rfl, rfl⟩]

/-- A pixel is read from its byte alone. -/
theorem getPixel_congr {m m' : Memory} {c : Params} {x y : Int}
    (h : Memory.read m (pixelIndex c x y) = Memory.read m' (pixelIndex c x y)) :
    getPixel c m x y = getPixel c m' x y := by
  rw [getPixel, h, getPixel]

/-- A write keeps the pixel's byte exactly when the pixel has the value already. -/
theorem read_setPixel_eq_iff {m : Memory} {c : Params} {x y : Int} (on : Bool) (h : Memory.wf m = true)
    (hin : inB c x y = true) :
    Memory.read (setPixel c m x y on) (pixelIndex c x y) = Memory.read m (pixelIndex c x y) ↔
      getPixel c m x y = on := by
  constructor
  · intro hbyte
    rw [← getPixel_congr hbyte, getPixel_setPixel_self on h hin]
  · rintro rfl
    rw [setPixel_getPixel c x y h]

/-! ### One operation (R101 to R104) -/

/-- `FB_CLEAR` is a fill and its response (R101). -/
theorem exec_fbClear (on : Bool) (s : State) :
    exec (.fbClear on) s =
      .next (respondEnc .ok (s.withFb (s.enc.fb.fill s.cfg.bytes (if on then 0xFF#8 else 0x00#8)))) := rfl

/-- `FB_SET` is a pixel write and its response (R102). -/
theorem exec_fbSet (x y : Int) (on : Bool) (s : State) :
    exec (.fbSet x y on) s = .next (respondEnc .ok (s.withFb (setPixel s.cfg s.enc.fb x y on))) := rfl

/-- `FB_GET` is a response alone (R103). -/
theorem exec_fbGet (x y : Int) (s : State) :
    exec (.fbGet x y) s = .next (respondEnc (.pixel (inB s.cfg x y && getPixel s.cfg s.enc.fb x y)) s) := rfl

/-- Settles O22: what a fill reads below and from its bound, and its pixels (`getPixel_fill`). -/
theorem fbClearSetsEveryByte : Obligations.FbClearSetsEveryByte := by
  intro s on
  refine ⟨_, exec_fbClear on s, fun i hi => ?_, fun i hi => ?_, fun hgeometry x y hin => ?_, rfl⟩
  · rw [respondEnc_fb, State.withFb_enc_fb, Memory.read_fill, if_pos hi]
  · rw [respondEnc_fb, State.withFb_enc_fb, Memory.read_fill, if_neg (Nat.not_lt.2 hi)]
  · obtain ⟨-, -, hheight, -⟩ := hgeometry
    exact getPixel_fill s.enc.fb on hheight hin

/-- Settles O23: the bits of the addressed byte (`getLsbD_read_setPixel`), and the other bytes. -/
theorem fbSetChangesAtMostOneBit : Obligations.FbSetChangesAtMostOneBit := by
  intro s x y on hwf
  refine ⟨_, exec_fbSet x y on s, fun hin j hj => ?_, fun _ i hi => ?_, fun hout => ?_, rfl⟩
  · rw [respondEnc_fb, State.withFb_enc_fb, getLsbD_read_setPixel s.cfg x y on _ hwf hj]
    simp only [hin, true_and]
  · exact read_setPixel_of_ne on hwf hi
  · exact setPixel_of_not_inB s.enc.fb on hout

/-- Settles O24: the answered bit is the pixel's where the four inequalities of `inB_iff` hold, else 0. -/
theorem fbGetAnswersThePixel : Obligations.FbGetAnswersThePixel := by
  intro s x y
  have hbounds : inB s.cfg x y = true ↔ 0 ≤ x ∧ x < s.cfg.width ∧ 0 ≤ y ∧ y < s.cfg.height :=
    (inB_iff s.cfg x y).trans and_assoc
  refine ⟨_, exec_fbGet x y s, fun hin => ?_, fun hout => ?_⟩
  · rw [hbounds.2 hin, Bool.true_and, getPixel, pixelIndex, pixelBit]
  · rw [Bool.eq_false_iff.2 (mt hbounds.1 hout), Bool.false_and]

/-- Settles O25: the operation is its response, written out field by field. -/
theorem fbBoundsAnswersTheGeometry : Obligations.FbBoundsAnswersTheGeometry := fun _ => rfl

/-! ### Runs of operations (R106 to R108) -/

/-- A run whose first operation answers a next state goes on from there. -/
theorem execAll_cons {i : Instr} {s t : State} (is : List Instr) (h : exec i s = .next t) :
    execAll (i :: is) s = execAll is t := by
  rw [execAll, h]

/-- Operations none of which writes a pixel can be run before any others, and leave it as it was. -/
theorem execAll_keeps_pixel {c : Params} {x y : Int} {is : List Instr} (js : List Instr) {s : State}
    (hcfg : s.cfg = c) (hwf : Memory.wf s.enc.fb = true) (hin : inB c x y = true)
    (hkeep : ∀ i ∈ is, writesPixel c x y i = false) :
    ∃ t, execAll (is ++ js) s = execAll js t ∧ t.cfg = c ∧ getPixel c t.enc.fb x y = getPixel c s.enc.fb x y := by
  induction is generalizing s with
  | nil => exact ⟨s, rfl, hcfg, rfl⟩
  | cons i is ih =>
    subst hcfg
    obtain ⟨hi, his⟩ := List.forall_mem_cons.1 hkeep
    obtain ⟨u, hexec, hucfg, huwf, -, hupixel⟩ := exec_framebuffer i s hwf
    obtain ⟨t, hrun, htcfg, htpixel⟩ := ih hucfg huwf his
    exact ⟨t, (execAll_cons _ hexec).trans hrun, htcfg, htpixel.trans (hupixel x y hin hi)⟩

/-- A set of the pixel and a clear both leave it at their polarity. -/
theorem getPixel_of_exec_write {i : Instr} {s t : State} {x y : Int} {on : Bool} (hwf : Memory.wf s.enc.fb = true)
    (hheight : s.cfg.height % 8 = 0) (hin : inB s.cfg x y = true) (hi : i = .fbSet x y on ∨ i = .fbClear on)
    (h : exec i s = .next t) : getPixel s.cfg t.enc.fb x y = on := by
  rcases hi with rfl | rfl
  · cases h
    exact getPixel_setPixel_self on hwf hin
  · cases h
    exact getPixel_fill s.enc.fb on hheight hin

/-- Settles O26: the first operation gives the pixel its value, those between keep it, and the read answers it. -/
theorem pixelKeepsItsValueUntilWritten : Obligations.PixelKeepsItsValueUntilWritten := by
  intro s x y on first between hinv hgeometry hin hfirst hkeep
  obtain ⟨hwf, -⟩ := hinv
  obtain ⟨-, -, hheight, -⟩ := hgeometry
  obtain ⟨u, hexec, hucfg, huwf, -⟩ := exec_framebuffer first s hwf
  have hwritten : getPixel s.cfg u.enc.fb x y = on := getPixel_of_exec_write hwf hheight hin hfirst hexec
  obtain ⟨t, hrun, htcfg, htpixel⟩ := execAll_keeps_pixel [.fbGet x y] hucfg huwf hin hkeep
  have hanswer : (inB t.cfg x y && getPixel t.cfg t.enc.fb x y) = on := by
    rw [htcfg, hin, Bool.true_and, htpixel, hwritten]
  refine ⟨_, (execAll_cons _ hexec).trans (hrun.trans (execAll_cons [] (exec_fbGet x y t))), ?_⟩
  rw [respondEnc_responses, List.getLast?_concat, hanswer]

/-- Two pixel writes run one after the other leave the framebuffer of both (R102). -/
theorem execAll_fbSet_fbSet (s : State) (x y x' y' : Int) (on on' : Bool) :
    ∃ t, execAll [.fbSet x y on, .fbSet x' y' on'] s = some t ∧
      t.enc.fb = setPixel s.cfg (setPixel s.cfg s.enc.fb x y on) x' y' on' :=
  ⟨_, (execAll_cons _ (exec_fbSet x y on s)).trans (execAll_cons [] (exec_fbSet x' y' on' _)), rfl⟩

theorem execAll_fbSet (s : State) (x y : Int) (on : Bool) :
    ∃ t, execAll [.fbSet x y on] s = some t ∧ t.enc.fb = setPixel s.cfg s.enc.fb x y on :=
  ⟨_, execAll_cons [] (exec_fbSet x y on s), rfl⟩

/-- Settles O27: the two writes are the unset alone (`setPixel_setPixel`), which keeps the byte of an off pixel only. -/
theorem setThenUnsetRestoresOnlyOffPixels : Obligations.SetThenUnsetRestoresOnlyOffPixels := by
  intro s x y hwf hin
  obtain ⟨t, hrun, hfb⟩ := execAll_fbSet_fbSet s x y x y true false
  rw [setPixel_setPixel s.cfg x y true false hwf] at hfb
  refine ⟨t, hrun, ?_, ?_⟩
  · rw [hfb, getPixel_setPixel_self false hwf hin]
  · rw [hfb, read_setPixel_eq_iff false hwf hin]

/-- Two sets of one pixel leave the framebuffer of the second alone. -/
theorem execAll_fbSet_later_stays (s : State) (x y : Int) (on on' : Bool) (hwf : Memory.wf s.enc.fb = true) :
    ∃ t u, execAll [.fbSet x y on, .fbSet x y on'] s = some t ∧ execAll [.fbSet x y on'] s = some u ∧
      t.enc.fb = u.enc.fb := by
  obtain ⟨t, ht, htfb⟩ := execAll_fbSet_fbSet s x y x y on on'
  obtain ⟨u, hu, hufb⟩ := execAll_fbSet s x y on'
  exact ⟨t, u, ht, hu, by rw [htfb, hufb, setPixel_setPixel s.cfg x y on on' hwf]⟩

/-- Settles O28: a repetition is the case `on' = on` of the later write staying; the other law is `setPixel_comm`. -/
theorem pixelWritesRepeatAndCommute : Obligations.PixelWritesRepeatAndCommute := by
  intro s x y x' y' on on' hwf
  refine ⟨execAll_fbSet_later_stays s x y on on hwf, fun _ _ hne => ?_, execAll_fbSet_later_stays s x y on on' hwf⟩
  obtain ⟨t, ht, htfb⟩ := execAll_fbSet_fbSet s x y x' y' on on'
  obtain ⟨u, hu, hufb⟩ := execAll_fbSet_fbSet s x' y' x y on' on
  exact ⟨t, u, ht, hu, by rw [htfb, hufb, setPixel_comm on on' hwf hne]⟩

end Sys2Proof.Machine
end

section
/-! PROOFS of the statements of the family 41_encoder.md: what `ENC_INIT` sends (R134), how an update ends at its first error
and repeats (R138, R140), what a draw writes (R141, R143 to R145), and the trace lengths (R150). What an operation's events
say of its response is `exec_encoder_events`; here the operations' own lists of primitives are put in. -/

namespace Sys2Proof.Machine

/-! ### Initialization (R134) -/

/-- The reset pulse sends nothing, so the transfers are those of the commands (R124, R133). -/
theorem busTransfers_initPrims (c : Params) (o : OutLines) :
    busTransfers o ((initPrims c).map .succeeded) = c.initSeq.map fun b => (.low, .low, [b]) := by
  have hpulse : busTransfers o ((resetPulse c).map .succeeded) = [] := rfl
  rw [initPrims, List.map_append, busTransfers_append, hpulse, List.nil_append, busTransfers_flatMap_cmd]

/-- Settles O32: a success performed every primitive of the initialization, whose transfers are the bytes. -/
theorem encInitEmitsInitSeqExactly : Obligations.EncInitEmitsInitSeqExactly := by
  intro s t h hr
  obtain ⟨new, -, htrace, -, rfl⟩ := exec_encoder_response h hr
  refine ⟨_, htrace, ?_⟩
  rw [operationSteps, ← initPrims_eq_initSteps, busTransfers_initPrims]

/-! ### Update (R138, R140) -/

/-- `ENC_UPDATE` is the run of its pages' primitives (R137). -/
theorem exec_encUpdate (s : State) : exec .encUpdate s = .next (runEncOp (updatePrims s.cfg s.enc.fb) s) := rfl

theorem exec_encUpdate_fb {s t : State} (h : exec .encUpdate s = .next t) : t.enc.fb = s.enc.fb :=
  onlyThreeOperationsWriteTheFramebuffer .encUpdate s t h (by decide) (by decide) (by decide)

/-- Settles O34: the failing index lies in the primitives of the pages, sixteen a page, so it and the primitives before
it stand at page `k / 16`. -/
theorem encUpdateStopsAtTheFirstError : Obligations.EncUpdateStopsAtTheFirstError := by
  intro s t e k h hr
  have hfb := exec_encUpdate_fb h
  obtain ⟨new, -, htrace, -, p, hp, -, rfl⟩ := exec_encoder_response h hr
  rw [hfb, operationSteps] at hp htrace
  have hk : k < 16 * s.cfg.pages := by
    rw [← length_pagesSteps s.cfg s.enc.fb]
    exact (List.getElem?_eq_some_iff.1 hp).1
  rw [getElem?_pagesSteps _ _ _ _ hk] at hp
  rw [take_pagesSteps_at _ _ _ _ hk, List.map_append] at htrace
  exact ⟨p, hp, Nat.div_lt_of_lt_mul hk, htrace, hfb⟩

/-- One sequence of primitives leaves the same events wherever the environment's answers are the same (R120). -/
theorem runEncOp_same_answers (ps : List Prim) {s s' : State} (hanswers : s.enc.answers = s'.enc.answers)
    (hdraws : s.enc.draws = s'.enc.draws) :
    ∃ new, (runEncOp ps s).enc.trace = s.enc.trace ++ new ∧ (runEncOp ps s').enc.trace = s'.enc.trace ++ new := by
  obtain ⟨new, -, htrace, htrace', -⟩ := runPrims_same_answers ps s.enc.begin s'.enc.begin hanswers hdraws rfl
  exact ⟨new, htrace, htrace'⟩

/-- Settles O35: equal configurations and framebuffers give one list of primitives, run on equal answers. -/
theorem repeatedUpdateLeavesTheSameEvents : Obligations.RepeatedUpdateLeavesTheSameEvents := by
  intro s s' hcfg hfb hanswers hdraws
  obtain ⟨new, htrace, htrace'⟩ := runEncOp_same_answers (updatePrims s.cfg s.enc.fb) hanswers hdraws
  rw [hcfg, hfb] at htrace'
  exact ⟨_, _, new, exec_encUpdate s, exec_encUpdate s', htrace, htrace', runEncOp_fb _ s, runEncOp_fb _ s'⟩

/-! ### Draw image (R141, R143 to R145) -/

theorem channel_lt (c : Params) (v : Nat) : channel c v < 2 ^ c.channelBits :=
  Nat.mod_lt v (Nat.two_pow_pos c.channelBits)

/-- The truncated mean is below the midpoint when the sum is below three times it (R141). -/
theorem thresholdOn_iff_sum (c : Params) (p : Rgb) :
    thresholdOn c p = true ↔ p.r + p.g + p.b < 3 * 2 ^ (c.channelBits - 1) := by
  rw [thresholdOn, decide_eq_true_iff, luminance, Nat.div_lt_iff_lt_mul (by decide), Nat.mul_comm]

/-- Settles O36: the mean's test is the definition, the sum's is `thresholdOn_iff_sum`, and each channel is reduced. -/
theorem thresholdIsTheSumTest : Obligations.ThresholdIsTheSumTest :=
  ⟨fun c p => ⟨decide_eq_true_iff, thresholdOn_iff_sum c p⟩,
    fun c _ _ _ => ⟨channel_lt c _, channel_lt c _, channel_lt c _⟩⟩

/-- For a pixel in bounds the overlap is the target rectangle (R144). -/
theorem inOverlap_iff_of_inB {c : Params} {x y : Int} (x0 y0 x1 y1 : Int) (h : inB c x y = true) :
    inOverlap c x0 y0 x1 y1 x y = true ↔ x0 ≤ x ∧ x < x1 ∧ y0 ≤ y ∧ y < y1 := by
  rw [inB_iff] at h
  simp only [inOverlap, Bool.and_eq_true, decide_eq_true_eq]
  omega

/-- The drawn framebuffer byte by byte: a byte without a pixel of the overlap reads as before (R145). -/
theorem read_drawInto (c : Params) (img : SourceImage) {m : Memory} {x0 y0 x1 y1 : Int} (sx sy : Int) {i : Nat}
    (h : Memory.wf m = true)
    (hi : ∀ x y, inOverlap c x0 y0 x1 y1 x y = true → pixelIndex c x y ≠ i) :
    Memory.read (drawInto c img m x0 y0 x1 y1 sx sy) i = Memory.read m i :=
  read_foldl_setPixel c (drawnOn c img x0 y0 sx sy) _ m i h fun (x, y) hxy _ =>
    hi x y ((mem_overlap c x0 y0 x1 y1 x y).1 hxy)

/-- `ENC_DRAW_IMAGE` answers what `ENC_UPDATE` answers from the drawn framebuffer (R145). -/
theorem exec_encDrawImage (x0 y0 x1 y1 sx sy : Int) (s : State) :
    exec (.encDrawImage x0 y0 x1 y1 sx sy) s =
      exec .encUpdate (s.withFb (drawInto s.cfg s.image s.enc.fb x0 y0 x1 y1 sx sy)) := rfl

/-- Settles O37: the drawn framebuffer, which the update leaves, by its pixels and by its bytes. -/
theorem drawImageWritesTheOverlapThenUpdates : Obligations.DrawImageWritesTheOverlapThenUpdates := by
  intro s x0 y0 x1 y1 sx sy hwf
  refine ⟨drawInto s.cfg s.image s.enc.fb x0 y0 x1 y1 sx sy, _, exec_encDrawImage x0 y0 x1 y1 sx sy s, exec_encUpdate _,
    exec_encUpdate_fb (exec_encUpdate _), (drawInto_inv _ _ _ _ _ _ _ _ _ hwf).1, fun x y hin => ?_, fun i hi => ?_⟩
  · rw [getPixel_drawInto _ _ _ _ _ _ _ _ _ hwf hin]
    simp only [inOverlap_iff_of_inB _ _ _ _ hin, drawnOn]
  · refine read_drawInto s.cfg s.image sx sy hwf fun x y hxy => ?_
    have hin := inB_of_inOverlap hxy
    exact hi x y hin ((inOverlap_iff_of_inB _ _ _ _ hin).1 hxy)

/-! ### Trace lengths (R150) -/

/-- R150's table counts the primitives that each operation performs. -/
theorem length_operationSteps (c : Params) (m : Memory) (i : Instr) :
    (operationSteps c m i).length = traceLength c i := by
  cases i with
  | encInit => rw [operationSteps, ← initPrims_eq_initSteps, length_initPrims, traceLength]
  | encUpdate | encDrawImage => exact length_pagesSteps c m c.pages
  | encPowerOff | fbClear | fbSet | fbGet | fbBounds | dbTick | dbStart | dbStop | dbSetPoll => rfl

theorem result_of_mem_succeeded {ps : List Prim} {ev : EncEvent} (h : ev ∈ ps.map .succeeded) : ev.result = .ok := by
  obtain ⟨p, -, rfl⟩ := List.mem_map.1 h
  rfl

/-- Events that are the primitives up to the first that fails have the length that their response says. -/
theorem eventsMatch_of_eventsOf {ps : List Prim} {new : List EncEvent} {r : Reply} (h : eventsOf ps new r) :
    eventsMatch ps.length new r := by
  cases r with
  | ok | pixel | bounds =>
    obtain rfl : new = ps.map .succeeded := h
    exact ⟨List.length_map _, fun _ => result_of_mem_succeeded⟩
  | errIllegal => exact h
  | errIo e k =>
    obtain ⟨p, hp, -, rfl⟩ := h
    have hk : k < ps.length := (List.getElem?_eq_some_iff.1 hp).1
    refine ⟨?_, ⟨p, List.getLast?_concat⟩, fun ev hev => ?_⟩
    · rw [List.length_append, List.length_map, List.length_take_of_le hk.le, List.length_singleton]
    · rw [List.dropLast_concat] at hev
      exact result_of_mem_succeeded hev

/-- Settles O42: the events are those of `operationSteps`, whose length is R150's. -/
theorem encoderTraceLengths : Obligations.EncoderTraceLengths := by
  intro i s t hp h
  obtain ⟨new, r, -, htrace, -, hresp, hev⟩ := exec_encoder_events hp h
  refine ⟨new, r, htrace, hresp, ?_⟩
  rw [← length_operationSteps s.cfg t.enc.fb i]
  exact eventsMatch_of_eventsOf hev

end Sys2Proof.Machine
end

section
/-! PROOFS of the statements of the family 42_debounce.md: what a tick does to one line (R163, R166 to R168), the start
and the stop (R170, R171, R173), hold once per press (R177), the event grammar (R179), and what `start` records (R32). -/

namespace Sys2Proof.Machine

/-! ### One line at one tick (R163, R166 to R168) -/

/-- What a tick emits for one line, from its entry before and what it reads now: at most one event. -/
def visitEmits (hold poll now : Nat) (l : Line) (b : ButtonState) (cur : Bool) : List (EventKind × Nat) :=
  ((classify hold poll now l b cur).map fun k => (k, now)).toList

theorem visitEmits_press (hold poll now : Nat) (l : Line) {b : ButtonState} (h : b.pressed = false) :
    visitEmits hold poll now l b true = [(.click, now)] := by
  simp [visitEmits, classify, h]

theorem visitEmits_idle (hold poll now : Nat) (l : Line) {b : ButtonState} (h : b.pressed = false) :
    visitEmits hold poll now l b false = [] := by
  simp [visitEmits, classify, h]

theorem visitEmits_release (hold poll now : Nat) (l : Line) {b : ButtonState} (h : b.pressed = true) :
    visitEmits hold poll now l b false = [(.release, now)] := by
  simp [visitEmits, classify, h]

theorem visitEmits_held (hold poll now : Nat) (l : Line) {b : ButtonState} {start : Nat} (hp : b.pressed = true)
    (hs : b.start = some start) :
    visitEmits hold poll now l b true =
      if inHoldWindow hold poll (elapsed now start) then [(.hold, now)] else [] := by
  simp only [visitEmits, classify, hp, startOf_of_some hs]
  split <;> rfl

/-- The window of R167, as the two comparisons it stands for. -/
theorem inHoldWindow_iff (hold poll now start : Nat) :
    inHoldWindow hold poll (elapsed now start) = true ↔
      (hold : Int) ≤ (now : Int) - start ∧ (now : Int) - start < (hold : Int) + poll := by
  rw [inHoldWindow, elapsed, Bool.and_eq_true, decide_eq_true_iff, decide_eq_true_iff]

theorem nextButton_press (now : Nat) {b : ButtonState} (h : b.pressed = false) :
    nextButton now b true = ⟨true, some now⟩ := by
  rw [nextButton, h]
  rfl

theorem nextButton_of_pressed (now : Nat) {b : ButtonState} (cur : Bool) (h : b.pressed = true) :
    nextButton now b cur = ⟨cur, b.start⟩ := by
  rw [nextButton, h]
  rfl

/-- What a tick while running says of one line: some level was read, and the line's entry and events follow from it. -/
theorem exec_dbTick_line {now : Nat} {s t : State} (l : Line) (hr : s.db.running = true)
    (h : exec (.dbTick now) s = .next t) :
    ∃ new v, t.db.trace = s.db.trace ++ new ∧ DbEvent.readLevel l v ∈ new ∧
      t.db.bs.get l = nextButton now (s.db.bs.get l) (mapLevel s.cfg l v) ∧
      lineEmits l new = visitEmits s.cfg.hold s.db.poll now l (s.db.bs.get l) (mapLevel s.cfg l v) := by
  cases (exec_dbTick_running now hr).symm.trans h
  obtain ⟨new, v, htrace, hread, hbs, hemits, -, -⟩ := pollAll_line s.cfg now s.db l
  exact ⟨new, v, htrace, hread, hbs, hemits⟩

/-- Settles O51: on an edge the level read is the line's entry after the tick, which fixes its events and its start. -/
theorem edgesEmitClickAndRelease : Obligations.EdgesEmitClickAndRelease := by
  intro s t now l hr hexec
  obtain ⟨new, v, htrace, -, hbs, hemits⟩ := exec_dbTick_line l hr hexec
  refine ⟨new, htrace, fun hbefore hafter => ?_, fun hbefore hafter => ?_⟩
  · rw [hbs] at hafter
    have hcur : mapLevel s.cfg l v = true := hafter
    rw [hemits, hbs, hcur, visitEmits_press _ _ _ _ hbefore, nextButton_press _ hbefore]
    exact ⟨rfl, rfl⟩
  · rw [hbs] at hafter
    have hcur : mapLevel s.cfg l v = false := hafter
    rw [hemits, hbs, hcur, visitEmits_release _ _ _ _ hbefore, nextButton_of_pressed _ _ hbefore]
    exact ⟨rfl, rfl⟩

/-- Settles O52: a held tick's events are decided by the window; a line not pressed before gives a click or nothing. -/
theorem holdFiresExactlyInItsWindow : Obligations.HoldFiresExactlyInItsWindow := by
  intro s t now start l hr hexec
  obtain ⟨new, v, htrace, -, hbs, hemits⟩ := exec_dbTick_line l hr hexec
  refine ⟨new, htrace, fun hbefore hstart hafter => ?_, fun hbefore => ?_⟩
  · rw [hbs] at hafter
    have hcur : mapLevel s.cfg l v = true := hafter
    rw [hemits, hcur, visitEmits_held _ _ _ _ hbefore hstart, ← inHoldWindow_iff]
    split <;> simp [*]
  · rw [hemits]
    cases mapLevel s.cfg l v with
    | true => simp [visitEmits_press _ _ _ _ hbefore]
    | false => simp [visitEmits_idle _ _ _ _ hbefore]

/-! ### Start and stop (R170, R171, R173) -/

theorem exec_dbStart (s : State) :
    exec .dbStart s = .next (respondDb .host .ok (s.withDb { s.db with running := true })) := by
  by_cases hr : s.db.running = true
  · have hkept : { s.db with running := true } = s.db := by rw [← hr]
    rw [hkept, exec, execDbStart, if_pos hr]
  · rw [exec, execDbStart, if_neg hr]

theorem exec_dbStop (s : State) :
    exec .dbStop s = .next (respondDb .host .ok (s.withDb { s.db with running := false })) := rfl

/-- Settles O54: both operations are one write of the flag and a response. -/
theorem startAndStopWriteTheRunningFlag : Obligations.StartAndStopWriteTheRunningFlag :=
  fun s => ⟨exec_dbStart s, exec_dbStop s⟩

/-- Two debounce sub-blocks agree in everything that a poll reads or writes; the running flag, the lock and the
responses are free to differ. -/
structure Debounce.PollsAlike (d d' : Debounce) : Prop where
  bs : d.bs = d'.bs
  poll : d.poll = d'.poll
  trace : d.trace = d'.trace
  levels : d.levels = d'.levels
  draws : d.draws = d'.draws

theorem Debounce.PollsAlike.refl (d : Debounce) : d.PollsAlike d := ⟨rfl, rfl, rfl, rfl, rfl⟩

theorem Debounce.PollsAlike.trans {d d' d'' : Debounce} (h : d.PollsAlike d') (h' : d'.PollsAlike d'') :
    d.PollsAlike d'' :=
  ⟨h.bs.trans h'.bs, h.poll.trans h'.poll, h.trace.trans h'.trace, h.levels.trans h'.levels, h.draws.trans h'.draws⟩

/-- Sub-blocks that poll alike read the same level, whether it is listed or free, and still poll alike. -/
theorem drawLevel_pollsAlike {d d' : Debounce} (h : d.PollsAlike d') :
    (drawLevel d).1 = (drawLevel d').1 ∧ (drawLevel d).2.PollsAlike (drawLevel d').2 := by
  obtain ⟨hbs, hpoll, htrace, hlevels, hdraws⟩ := h
  unfold drawLevel
  rw [← hlevels]
  cases d.levels with
  | nil => exact ⟨by rw [hdraws], hbs, hpoll, htrace, rfl, congrArg (· + 1) hdraws⟩
  | cons v rest => exact ⟨rfl, hbs, hpoll, htrace, rfl, hdraws⟩

theorem pollLine_pollsAlike {d d' : Debounce} (c : Params) (now : Nat) (l : Line) (h : d.PollsAlike d') :
    (pollLine c now d l).PollsAlike (pollLine c now d' l) := by
  obtain ⟨hlevel, hbs, hpoll, htrace, hlevels, hdraws⟩ := drawLevel_pollsAlike h
  constructor <;> simp only [pollLine, hlevel, hbs, hpoll, htrace, hlevels, hdraws]

theorem pollAll_pollsAlike {d d' : Debounce} (c : Params) (now : Nat) (h : d.PollsAlike d') :
    (pollAll c now d).PollsAlike (pollAll c now d') :=
  List.foldl_rel h fun l _ _ _ h => pollLine_pollsAlike c now l h

theorem respondDb_pollsAlike (q : ReplyTo) (r : Reply) (s : State) : (respondDb q r s).db.PollsAlike s.db :=
  ⟨rfl, rfl, rfl, rfl, rfl⟩

theorem respondDb_withRunning_pollsAlike (q : ReplyTo) (r : Reply) (s : State) (running : Bool) :
    (respondDb q r (s.withDb { s.db with running := running })).db.PollsAlike s.db :=
  ⟨rfl, rfl, rfl, rfl, rfl⟩

/-- The same tick on two running blocks that poll alike leaves them polling alike. -/
theorem exec_dbTick_pollsAlike {s s' : State} (now : Nat) (hr : s.db.running = true) (hr' : s'.db.running = true)
    (hcfg : s.cfg = s'.cfg) (h : s.db.PollsAlike s'.db) :
    ∃ t t', exec (.dbTick now) s = .next t ∧ exec (.dbTick now) s' = .next t' ∧ t.db.PollsAlike t'.db := by
  refine ⟨_, _, exec_dbTick_running now hr, exec_dbTick_running now hr', ?_⟩
  have hpolled := pollAll_pollsAlike s.cfg now h
  rw [hcfg] at hpolled ⊢
  exact ⟨hpolled.bs, hpolled.poll, hpolled.trace, hpolled.levels, hpolled.draws⟩

/-- Ticks while stopped can be run before any operations, and leave what a poll reads as it was (R173). -/
theorem execAll_stopped_ticks (times : List Nat) (is : List Instr) {s : State} (hstopped : s.db.running = false) :
    ∃ u, execAll (times.map .dbTick ++ is) s = execAll is u ∧ u.cfg = s.cfg ∧ u.db.PollsAlike s.db := by
  induction times generalizing s with
  | nil => exact ⟨s, rfl, rfl, .refl _⟩
  | cons now times ih =>
    obtain ⟨u, hrun, hcfg, halike⟩ := ih (s := respondDb .pollTimer .ok s) hstopped
    exact ⟨u, (execAll_cons _ (exec_dbTick_stopped now hstopped)).trans hrun, hcfg,
      halike.trans (respondDb_pollsAlike _ _ s)⟩

/-- A stop, ticks and a start before any operations leave a running block that polls as before (R170, R171). -/
theorem execAll_stop_ticks_start (s : State) (times : List Nat) (is : List Instr) :
    ∃ u, execAll (.dbStop :: times.map .dbTick ++ .dbStart :: is) s = execAll is u ∧ u.cfg = s.cfg ∧
      u.db.running = true ∧ u.db.PollsAlike s.db := by
  obtain ⟨u, hrun, hcfg, halike⟩ := execAll_stopped_ticks times (.dbStart :: is)
    (s := respondDb .host .ok (s.withDb { s.db with running := false })) rfl
  have hstop := respondDb_withRunning_pollsAlike .host .ok s false
  have hstart := respondDb_withRunning_pollsAlike .host .ok u true
  exact ⟨_, (execAll_cons _ (exec_dbStop s)).trans (hrun.trans (execAll_cons _ (exec_dbStart u))), hcfg, rfl,
    hstart.trans (halike.trans hstop)⟩

/-- Settles O56: the tick meets a running block that polls as the one before the stop. -/
theorem stoppedTicksLeaveNoMark : Obligations.StoppedTicksLeaveNoMark := by
  intro s times now hr
  obtain ⟨v, hrun, hcfg, hrunning, halike⟩ := execAll_stop_ticks_start s times [.dbTick now]
  obtain ⟨t, u, ht, hu, htu⟩ := exec_dbTick_pollsAlike now hrunning hr hcfg halike
  obtain ⟨-, hkept, -⟩ := exec_dbTick_frame ht
  exact ⟨t, u, hrun.trans (execAll_cons [] ht), hu, htu.bs, htu.trace, hkept.trans hrunning⟩

/-! ### Hold fires once per press (R175, R177) -/

/-- Ticks that all read a pressed line pressed emit a hold at each of their times that lies in the window. -/
theorem execAll_held_ticks (l : Line) (start : Nat) (times : List Nat) {s : State} (hr : s.db.running = true) :
    ∃ t new, execAll (times.map .dbTick) s = some t ∧ t.db.trace = s.db.trace ++ new ∧
      (s.db.bs.get l = ⟨true, some start⟩ → (∀ v, DbEvent.readLevel l v ∈ new → mapLevel s.cfg l v = true) →
        lineEmits l new =
          (times.filter fun now => inHoldWindow s.cfg.hold s.db.poll (elapsed now start)).map (.hold, ·)) := by
  induction times generalizing s with
  | nil => exact ⟨s, [], rfl, (List.append_nil _).symm, fun _ _ => rfl⟩
  | cons now times ih =>
    have hexec := exec_dbTick_running now hr
    obtain ⟨-, hrunning, hpoll⟩ := exec_dbTick_frame hexec
    obtain ⟨new, v, htrace, hread, hbs, hemits⟩ := exec_dbTick_line l hr hexec
    obtain ⟨t, later, hrun, hlater, hholds⟩ := ih (hrunning.trans hr)
    refine ⟨t, new ++ later, (execAll_cons _ hexec).trans hrun, ?_, fun hheld hreads => ?_⟩
    · rw [hlater, htrace, List.append_assoc]
    · rw [hheld, hreads v (List.mem_append_left _ hread)] at hbs hemits
      rw [lineEmits_append, hemits, visitEmits_held _ _ _ _ rfl rfl,
        hholds hbs fun w hw => hreads w (List.mem_append_right _ hw), hpoll, List.filter_cons]
      split <;> rfl

/-- The times of the held ticks of `IT(t0, P)` through tick `m` (R175). -/
def heldTimes (t0 p m : Nat) : List Nat := (List.range' 1 m).map fun k => t0 + k * p

theorem idealTicks_eq (t0 p m : Nat) : idealTicks t0 p m = .dbTick t0 :: (heldTimes t0 p m).map .dbTick := by
  simp [idealTicks, heldTimes, List.range_eq_range', List.range'_succ]

/-- Under ideal timing the window holds one tick, number `ceil(T / P)`. -/
theorem inHoldWindow_ideal_iff {p : Nat} (hp : 0 < p) (hold t0 k : Nat) :
    inHoldWindow hold p (elapsed (t0 + k * p) t0) = true ↔ k = (hold + p - 1) / p := by
  rw [inHoldWindow_iff, eq_comm, Nat.div_eq_iff hp]
  omega

/-- Of the held ticks of `IT(t0, P)`, number `ceil(T / P)` alone is in the window, if `T > 0` and it was reached. -/
theorem filter_heldTimes {p : Nat} (hp : 0 < p) (hold t0 m : Nat) :
    (heldTimes t0 p m).filter (fun now => inHoldWindow hold p (elapsed now t0)) =
      if 0 < hold ∧ (hold + p - 1) / p ≤ m then [t0 + (hold + p - 1) / p * p] else [] := by
  have hwindow : (fun now => inHoldWindow hold p (elapsed now t0)) ∘ (fun k => t0 + k * p) =
      fun k => decide (k = (hold + p - 1) / p) :=
    funext fun k => Bool.eq_iff_iff.2 ((inHoldWindow_ideal_iff hp hold t0 k).trans decide_eq_true_iff.symm)
  have hreached : (hold + p - 1) / p ∈ List.range' 1 m ↔ 0 < hold ∧ (hold + p - 1) / p ≤ m := by
    have hpos : 1 ≤ (hold + p - 1) / p ↔ 0 < hold := by
      rw [Nat.le_div_iff_mul_le hp]
      omega
    rw [List.mem_range'_1, hpos]
    omega
  rw [heldTimes, List.filter_map, hwindow, List.filter_eq, List.Nodup.count (List.nodup_range' ..)]
  simp only [hreached]
  split <;> rfl

/-- Settles O53: the first tick is a press edge with its click, and the ticks after it are held. -/
theorem holdFiresOncePerPress : Obligations.HoldFiresOncePerPress := by
  intro s l t0 m hr hp hbefore
  have hexec := exec_dbTick_running t0 hr
  obtain ⟨-, hrunning, hpoll⟩ := exec_dbTick_frame hexec
  obtain ⟨new, v, htrace, hread, hbs, hemits⟩ := exec_dbTick_line l hr hexec
  obtain ⟨t, later, hrun, hlater, hholds⟩ :=
    execAll_held_ticks l t0 (heldTimes t0 s.db.poll m) (hrunning.trans hr)
  refine ⟨t, new ++ later, ?_, ?_, fun hreads => ?_⟩
  · rw [idealTicks_eq]
    exact (execAll_cons _ hexec).trans hrun
  · rw [hlater, htrace, List.append_assoc]
  · have hcur := hreads v (List.mem_append_left _ hread)
    rw [hcur, nextButton_press _ hbefore] at hbs
    rw [hcur, visitEmits_press _ _ _ _ hbefore] at hemits
    rw [lineEmits_append, hemits, hholds hbs fun w hw => hreads w (List.mem_append_right _ hw), hpoll,
      respondDb_cfg, State.withDb_cfg, filter_heldTimes hp]
    split <;> rfl

/-! ### The events of a line in any run (R32, R179) -/

/-- What a step does to one line: nothing, or one visit at some time, whatever it reads. -/
theorem DebounceEffect.line {c : Params} {d d' : Debounce} (h : DebounceEffect c d d') (l : Line) :
    (lineEmits l d'.trace = lineEmits l d.trace ∧ d'.bs.get l = d.bs.get l) ∨
    ∃ now cur, lineEmits l d'.trace = lineEmits l d.trace ++ visitEmits c.hold d.poll now l (d.bs.get l) cur ∧
      d'.bs.get l = nextButton now (d.bs.get l) cur := by
  obtain ⟨-, -, ⟨htrace, hbs⟩ | ⟨now, lv, htrace, hbs⟩⟩ := h
  · exact .inl ⟨by rw [htrace], by rw [hbs]⟩
  · refine .inr ⟨now, mapLevel c l (lv l), ?_, hbs l⟩
    rw [htrace, lineEmits_append, lineEmits_poll _ _ _ _ _ Line.nodup_all, if_pos (Line.mem_all l), visitEmits]

/-- Settles O57: a visit's events move the grammar from the line's entry before to its entry after. -/
theorem eventGrammarIsKept : Obligations.EventGrammarIsKept := by
  intro s t hinv hstep l
  obtain ⟨-, -, hdb⟩ := step_effect hstep
  rcases hdb.line l with ⟨hemits, hbs⟩ | ⟨now, cur, hemits, hbs⟩
  · rw [hemits, hbs]
    exact hinv l
  · rw [hemits, hbs, grammarFrom_append, hinv l]
    exact grammar_after_visit _ _ _ _ _ _

/-- Settles O58: a visit writes `start` exactly when it adds a click. -/
theorem startIsTheLastPressEdge : Obligations.StartIsTheLastPressEdge := by
  intro s t hinv hstep l
  obtain ⟨-, -, hdb⟩ := step_effect hstep
  rcases hdb.line l with ⟨hemits, hbs⟩ | ⟨now, cur, hemits, hbs⟩
  · rw [hemits, hbs]
    exact hinv l
  · rw [hemits, hbs]
    exact start_after_visit _ _ _ _ _ _ _ (hinv l)

/-- Events that end inside a press begin with a click. -/
theorem exists_click_of_grammarFrom {es : List (EventKind × Nat)} (h : grammarFrom (some false) es = some true) :
    ∃ t rest, es = (.click, t) :: rest := by
  match es, h with
  | (.click, t) :: rest, _ => exact ⟨t, rest, rfl⟩

theorem lastClick_click_isSome (t : Nat) (es : List (EventKind × Nat)) :
    (lastClick ((.click, t) :: es)).isSome = true := by
  simp [lastClick]

/-- Settles O59: the events of a pressed line begin with a click, so they have a last one, whose time is its start. -/
theorem pressedLineHasAStart : Obligations.PressedLineHasAStart := by
  intro s hgrammar hstart l hpressed
  have hinside := hgrammar l
  rw [hpressed] at hinside
  obtain ⟨t, rest, hemits⟩ := exists_click_of_grammarFrom hinside
  rw [hstart l, hemits]
  exact lastClick_click_isSome t rest

end Sys2Proof.Machine
end

section
/-! PROOFS of the statements of the family 60_exceptions.md: no step is a fault or a refusal (R190, R193, R197). -/

namespace Sys2Proof.Machine

/-- Every operation, whichever port owns it and whatever the environment answered, ends in a next state (R190, R193). -/
theorem exec_next (i : Instr) (s : State) : ∃ t, exec i s = .next t := by
  cases hp : i.op.port with
  | encoder =>
    obtain ⟨t, _, _, ht, -⟩ := exec_encoder_cases (s := s) hp
    exact ⟨t, ht⟩
  | debounce =>
    obtain ⟨t, _, _, ht, -⟩ := exec_debounce_cases (s := s) hp
    exact ⟨t, ht⟩

/-- Settles O12: a wait and a refused request are next states, and so is every operation, by `exec_next`. -/
theorem noStepStops : Obligations.NoStepStops := by
  intro s
  rcases step_cases (s := s) rfl with ⟨-, hwait⟩ | ⟨r, rest, -, -, -, hrefuse⟩ | ⟨r, rest, i, -, -, -, hexec⟩
  · exact ⟨awaitRequests s, hwait⟩
  · exact ⟨refuseIllegal r rest s, hrefuse⟩
  · rw [hexec]
    exact exec_next i (accept r rest s)

end Sys2Proof.Machine
end

section
/-! PROOFS of the statements of the family 70_reset_and_hazards.md: what construction leaves (R220, R221). -/

namespace Sys2Proof.Machine

/-- Every byte of the empty framebuffer reads as the reset value (R24). -/
@[simp] theorem Memory.read_nil (i : Nat) : Memory.read [] i = 0x00#8 := rfl

/-- A valid configuration is constructed (R220). -/
theorem State.construct_of_valid {c : Params} (h : c.Valid) : State.construct c = some (State.ofParams c) :=
  if_pos h

/-- An invalid configuration gives no block (R9). -/
theorem State.construct_of_not_valid {c : Params} (h : ¬ c.Valid) : State.construct c = none :=
  if_neg h

/-- Settles O18: the block constructed is `State.ofParams`, each item of which is a fixed value or the configuration's;
the bytes and the lines read so at every index (`Memory.read_nil`, `ButtonFile.get_fresh`). -/
theorem resetLeavesTheTableOfR221 : Obligations.ResetLeavesTheTableOfR221 := by
  refine ⟨fun c hvalid => ⟨State.ofParams c, State.construct_of_valid hvalid, ?framebuffer, rfl, rfl, rfl, rfl, rfl, rfl,
    ?lines, rfl, rfl, rfl, rfl, rfl⟩, fun _ hinvalid => State.construct_of_not_valid hinvalid⟩
  case framebuffer => exact Memory.read_nil
  case lines =>
    intro l
    have hfresh : (State.ofParams c).db.bs.get l = .fresh := ButtonFile.get_fresh l
    exact ⟨congrArg ButtonState.pressed hfresh, congrArg ButtonState.start hfresh⟩

end Sys2Proof.Machine
end
